-- ==== Sys2Proof/Word.lean ====
section
/-! DEFINITION. The words and enumerated values of the block: the phase position, the event word, and the two
values each of RATE and DIR (`spec/00_scope.md` R8, R10; `spec/30_encoding.md` R63). -/

namespace Sys2Proof

/-- The two values of RATE (`00_scope.md` R10). -/
inductive Rate where
  | normal
  | fast
  deriving DecidableEq, Repr

/-- The two values of DIR (`00_scope.md` R10). The names say only the sign of counting (`30_encoding.md` R71). -/
inductive Dir where
  | forward
  | reverse
  deriving DecidableEq, Repr

/-- A phase position: 2 bits, counted modulo 4 (`10_state.md` R22). -/
abbrev Phase := BitVec 2

/-- The event word `EV` of a block whose port has `portW` bits: `8 + PORT_W` bits (`30_encoding.md` R63). -/
abbrev EventWord (portW : Nat) := BitVec (8 + portW)

end Sys2Proof
end

