-- ==== Sys2Proof/Config.lean ====
section
/-! DEFINITION. The implementation parameters (`spec/00_scope.md` R5), one record that is constant for a whole run,
and the one free value of the spec, `UNSPEC(N)` (R9). -/

namespace Sys2Proof

/-- The configuration record of `00_scope.md` R5. Plain data; the constraint of R6 is `Config.wf`
(`Sys2Proof/WellFormed.lean`). -/
structure Config where
  /-- `W_TICK`: the width of TICKCNT and of the two thresholds. -/
  wTick : Nat
  /-- `T_NORMAL`: the threshold selected when RATE = NORMAL. -/
  tNormal : BitVec wTick
  /-- `T_FAST`: the threshold selected when RATE = FAST. -/
  tFast : BitVec wTick
  /-- `PORT_W`: the width of the output port OUT. -/
  portW : Nat
  /-- `ARB_SPLIT`: whether WRRATE and WRDIR are admitted beside SAMPLE. -/
  arbSplit : Bool
  /-- `F_TICK` in ticks per second, `none` where it is left open; used by no operation (R5, log 13). -/
  fTick : Option Rat
  deriving DecidableEq, Repr

/-- The default column of `00_scope.md` R5: `W_TICK` = 8, `T_NORMAL` = 2, `T_FAST` = 0, `PORT_W` = 8,
`ARB_SPLIT` = false, `F_TICK` open. -/
def Config.default : Config :=
  { wTick := 8, tNormal := 2#8, tFast := 0#8, portW := 8, arbSplit := false, fTick := none }

/-- R5's defaults with `ARB_SPLIT` = true, which admits all eight operations of `30_encoding.md` R65; "use true to
cover the software" (`92_eei_decisions.md` D10). The configuration of `State.reset`. DESIGN CHOICE (log 2), safe:
it admits every event sequence the default admits, and more. -/
def Config.covering : Config :=
  { Config.default with arbSplit := true }

/-- `UNSPEC(n)` (`00_scope.md` R9): an `n`-bit value the spec does not fix, "a free input of the step (a draw), never
as a particular value". No body: nothing can be proved of its value. Its first argument numbers the draw.
DESIGN CHOICE (log 4), safe. -/
opaque Config.unspec (draw n : Nat) : BitVec n

end Sys2Proof
end

