-- ==== Sys2Proof/Syntax.lean ====
section
/-! DEFINITION. The operations of the block, one constructor per row of `spec/opcode_table.json`
(`spec/30_encoding.md` R65), the agents that issue them, and the shape of an opcode-table row. -/

namespace Sys2Proof

/-- One operation, with its operands (`30_encoding.md` R64). -/
inductive Instr where
  /-- NOP: nothing happens (`42_control.md` R110). -/
  | nop
  /-- RESET: every register to its reset value (`42_control.md` R111). -/
  | reset
  /-- START: the startup collaborator has finished (`42_control.md` R112). -/
  | start
  /-- TICK: one tick of the hardware timer (`40_sequencer.md` R80). -/
  | tick
  /-- SAMPLE `ff_n`, `fr_n`: the LEVELS of the two override lines, `false` = logic 0 = asserted
  (`41_arbiter.md` R100). -/
  | sample (ffN frN : Bool)
  /-- WRRATE `r`: commit RATE alone (`41_arbiter.md` R104). -/
  | wrrate (r : Rate)
  /-- WRDIR `d`: commit DIR alone (`41_arbiter.md` R105). -/
  | wrdir (d : Dir)
  /-- PORTWR `v`: the new value of OUT[`PORT_W-1`:2], a number of `PORT_W - 2` bits (`42_control.md` R113). -/
  | portwr (v : Nat)
  deriving DecidableEq, Repr

/-- The three agents that issue events (`00_scope.md` R7). -/
inductive Agent where
  | sequencer
  | arbiter
  | environment
  deriving DecidableEq, Repr

/-- One row of the opcode map of `30_encoding.md` R65, at `PORT_W` = 8. -/
structure OpcodeRow where
  mnemonic : String
  agent : Agent
  /-- R65's `match`. -/
  pattern : BitVec 16
  /-- R65's `mask`. -/
  mask : BitVec 16
  /-- Admitted only when `ARB_SPLIT` is true. -/
  splitOnly : Bool
  deriving DecidableEq, Repr

end Sys2Proof
end

