-- ==== Sys2Proof/WellFormed.lean ====
section
/-! DEFINITION. Which configurations and which operations are well formed (`spec/00_scope.md` R5, R6;
`spec/30_encoding.md` R64, R65). -/

namespace Sys2Proof

/-- A well-formed configuration: `W_TICK` >= 1 and `PORT_W` >= 2 (`00_scope.md` R5), and both thresholds at most
`2^W_TICK - 2` (R6), so that `threshold + 1` is representable. -/
def Config.wf (c : Config) : Bool :=
  decide (1 ≤ c.wTick) && decide (2 ≤ c.portW)
    && decide (c.tNormal.toNat ≤ 2 ^ c.wTick - 2) && decide (c.tFast.toNat ≤ 2 ^ c.wTick - 2)

/-- A well-formed and admitted operation under configuration `c`: PORTWR's operand has `PORT_W - 2` bits
(`30_encoding.md` R64), and WRRATE and WRDIR are admitted only when `ARB_SPLIT` is true (R65). -/
def Instr.wf (c : Config) : Instr → Bool
  | .nop => true
  | .reset => true
  | .start => true
  | .tick => true
  | .sample _ _ => true
  | .wrrate _ => c.arbSplit
  | .wrdir _ => c.arbSplit
  | .portwr v => decide (v < 2 ^ (c.portW - 2))

end Sys2Proof
end

