-- ==== Sys2Proof/Machine/Operands.lean ====
section
/-! DEFINITION. Every operand form of the event word: how each operand sits in the `arg` field, both ways
(`spec/30_encoding.md` R60, R61, R64). No operand is sign-extended, scaled or shifted. -/

namespace Sys2Proof.Machine

/-- An input line is asserted when its level is logic 0 (`00_scope.md` R10, `30_encoding.md` R60 (a)). -/
def asserted (level : Bool) : Bool := !level

/-- The code of a rate mode (`30_encoding.md` R61). -/
def rateCode : Rate → Bool
  | .normal => false
  | .fast => true

/-- The rate mode of a code (`30_encoding.md` R61). -/
def rateOfCode (b : Bool) : Rate := if b then .fast else .normal

/-- The code of a direction (`30_encoding.md` R61). -/
def dirCode : Dir → Bool
  | .forward => false
  | .reverse => true

/-- The direction of a code (`30_encoding.md` R61). -/
def dirOfCode (b : Bool) : Dir := if b then .reverse else .forward

/-- `arg` of SAMPLE: `ff_n` in `arg[0]`, `fr_n` in `arg[1]`, the rest 0 (`30_encoding.md` R64). -/
def levelsArg (n : Nat) (ffN frN : Bool) : BitVec n := BitVec.ofNat n (ffN.toNat + 2 * frN.toNat)

/-- `arg` of WRRATE and WRDIR: the code in `arg[0]`, the rest 0 (`30_encoding.md` R64). -/
def codeArg (n : Nat) (b : Bool) : BitVec n := BitVec.ofNat n b.toNat

/-- `arg` of PORTWR: `v` in `arg[PORT_W-1:2]`, 0 in `arg[1:0]` (`30_encoding.md` R64). -/
def portArg (n v : Nat) : BitVec n := BitVec.ofNat n (4 * v)

/-- `v` of PORTWR: the field `arg[PORT_W-1:2]` as an unsigned number (`30_encoding.md` R64). -/
def portOperand (n : Nat) (arg : BitVec n) : Nat := arg.toNat / 4

/-- The bits of `arg` from bit `k` up are all 0. -/
def clearFrom (n k : Nat) (arg : BitVec n) : Bool := arg.toNat < 2 ^ k

/-- `arg[1:0]` is 0. -/
def lowClear (n : Nat) (arg : BitVec n) : Bool := arg.toNat % 4 == 0

end Sys2Proof.Machine
end

