-- ==== Sys2Proof/Decode.lean ====
section
/-! DEFINITION. The event word: its fields, the total decoder, the encoder, and the opcode map
(`spec/30_encoding.md` R63 to R67, R70). The encodings are the spec's own choice (`92_eei_decisions.md` D12); the
source defines none. -/

namespace Sys2Proof

open Sys2Proof.Machine

/-- Assemble an event word `op :: 0b0000 :: arg` (`30_encoding.md` R70). -/
def eventWord (n : Nat) (op : BitVec 4) (arg : BitVec n) : EventWord n := op ++ 0#4 ++ arg

/-- `op` = `EV[PORT_W+7 : PORT_W+4]` (`30_encoding.md` R63). -/
def opField (n : Nat) (ev : EventWord n) : BitVec 4 := ev.extractLsb' (n + 4) 4

/-- `z` = `EV[PORT_W+3 : PORT_W]` (`30_encoding.md` R63). -/
def zField (n : Nat) (ev : EventWord n) : BitVec 4 := ev.extractLsb' n 4

/-- `arg` = `EV[PORT_W-1 : 0]` (`30_encoding.md` R63). -/
def argField (n : Nat) (ev : EventWord n) : BitVec n := ev.extractLsb' 0 n

/-- Why an event word is invalid (`30_encoding.md` R66), in the order R70 checks. -/
inductive Invalid where
  /-- `z` is not 0. -/
  | nonzeroZ
  /-- `op` is 0x8 to 0xF. -/
  | reservedOp
  /-- `op` is 0x5 or 0x6 while `ARB_SPLIT` is false. -/
  | notAdmitted
  /-- A must-be-zero bit of `arg` is 1. -/
  | nonzeroArg
  deriving DecidableEq, Repr

/-- Step (4) of R70: the operation, unless a must-be-zero bit of `arg` is 1. -/
def checked (argOk : Bool) (i : Instr) : Except Invalid Instr :=
  if argOk then .ok i else .error .nonzeroArg

/-- Step (3) of R70 for the two rows that are admitted only when `ARB_SPLIT` is true. -/
def whenSplit (c : Config) (d : Except Invalid Instr) : Except Invalid Instr :=
  if c.arbSplit then d else .error .notAdmitted

/-- Steps (3) to (5) of R70: the row of R65 by `op`, its admission, its must-be-zero bits, its operands. -/
def decodeOp (c : Config) (op : BitVec 4) (arg : BitVec c.portW) : Except Invalid Instr :=
  match op.toNat with
  | 0x0 => checked (clearFrom c.portW 0 arg) .nop
  | 0x1 => checked (clearFrom c.portW 0 arg) .reset
  | 0x2 => checked (clearFrom c.portW 0 arg) .start
  | 0x3 => checked (clearFrom c.portW 0 arg) .tick
  | 0x4 => checked (clearFrom c.portW 2 arg) (.sample (arg.getLsbD 0) (arg.getLsbD 1))
  | 0x5 => whenSplit c (checked (clearFrom c.portW 1 arg) (.wrrate (rateOfCode (arg.getLsbD 0))))
  | 0x6 => whenSplit c (checked (clearFrom c.portW 1 arg) (.wrdir (dirOfCode (arg.getLsbD 0))))
  | 0x7 => checked (lowClear c.portW arg) (.portwr (portOperand c.portW arg))
  | _ => .error .reservedOp

/-- The decoder of `30_encoding.md` R70: total, reads no state, and depends on the configuration only through
`PORT_W` and `ARB_SPLIT` (R67). -/
def decode (c : Config) (ev : EventWord c.portW) : Except Invalid Instr :=
  if zField c.portW ev = 0#4 then decodeOp c (opField c.portW ev) (argField c.portW ev)
  else .error .nonzeroZ

/-- The operation code of each operation (`30_encoding.md` R65). -/
def opcode : Instr → BitVec 4
  | .nop => 0x0#4
  | .reset => 0x1#4
  | .start => 0x2#4
  | .tick => 0x3#4
  | .sample _ _ => 0x4#4
  | .wrrate _ => 0x5#4
  | .wrdir _ => 0x6#4
  | .portwr _ => 0x7#4

/-- The assembled operand field of each operation (`30_encoding.md` R64). -/
def operandArg (n : Nat) : Instr → BitVec n
  | .nop => 0#n
  | .reset => 0#n
  | .start => 0#n
  | .tick => 0#n
  | .sample ffN frN => levelsArg n ffN frN
  | .wrrate r => codeArg n (rateCode r)
  | .wrdir d => codeArg n (dirCode d)
  | .portwr v => portArg n v

/-- The encoder of `30_encoding.md` R70. -/
def encode (c : Config) (i : Instr) : EventWord c.portW :=
  eventWord c.portW (opcode i) (operandArg c.portW i)

/-- The mnemonic of each operation (`30_encoding.md` R65). -/
def mnemonicOf : Instr → String
  | .nop => "NOP"
  | .reset => "RESET"
  | .start => "START"
  | .tick => "TICK"
  | .sample _ _ => "SAMPLE"
  | .wrrate _ => "WRRATE"
  | .wrdir _ => "WRDIR"
  | .portwr _ => "PORTWR"

/-- The agent that issues each operation (`30_encoding.md` R65, `00_scope.md` R7). -/
def agentOf : Instr → Agent
  | .nop => .environment
  | .reset => .environment
  | .start => .environment
  | .tick => .sequencer
  | .sample _ _ => .arbiter
  | .wrrate _ => .arbiter
  | .wrdir _ => .arbiter
  | .portwr _ => .environment

/-- The opcode map of `30_encoding.md` R65 at `PORT_W` = 8, row by row as the spec prints it. -/
def opcodeTable : List OpcodeRow :=
  [⟨"NOP", .environment, 0x0000#16, 0xFFFF#16, false⟩,
   ⟨"RESET", .environment, 0x1000#16, 0xFFFF#16, false⟩,
   ⟨"START", .environment, 0x2000#16, 0xFFFF#16, false⟩,
   ⟨"TICK", .sequencer, 0x3000#16, 0xFFFF#16, false⟩,
   ⟨"SAMPLE", .arbiter, 0x4000#16, 0xFFFC#16, false⟩,
   ⟨"WRRATE", .arbiter, 0x5000#16, 0xFFFE#16, true⟩,
   ⟨"WRDIR", .arbiter, 0x6000#16, 0xFFFE#16, true⟩,
   ⟨"PORTWR", .environment, 0x7000#16, 0xFF03#16, false⟩]

/-- An event word selects a row when `(w & mask) == match` and the row is admitted (`30_encoding.md` R65). -/
def OpcodeRow.selects (row : OpcodeRow) (arbSplit : Bool) (w : BitVec 16) : Bool :=
  w &&& row.mask == row.pattern && (!row.splitOnly || arbSplit)

/-- The operation the decoder reads from the table word `w` of `nbits` bits (16 in every row), under the
configuration of `State.reset`; the event word is one word, so no byte order enters (`20_memory.md` R42). -/
def decodeTableWord (nbits w : Nat) : Option Instr :=
  (decode Config.covering (BitVec.ofNat _ (w % 2 ^ nbits))).toOption

end Sys2Proof
end

