-- ==== Sys2Proof/Machine/State.lean ====
section
/-! DEFINITION. What the block holds (`spec/10_state.md` R20), the ways the model can stop, and the state after
reset (R34). -/

namespace Sys2Proof.Machine

/-- The faults of the block: none. "The block raises no synchronous exception, in any state, for any operation"
(`60_exceptions.md` R120), so the type has no constructor and no step can answer a fault. Log 16; safe. -/
inductive Fault where
  deriving DecidableEq, Repr

/-- The ways the model refuses. None of them is an event of the block (`60_exceptions.md` R120). -/
inductive Refusal where
  /-- Raised by `exec` alone, for an operation that has no meaning yet. Safe. No arm raises it. -/
  | notModelled (mnemonic : String)
  /-- Raised by `fetch` when the next event word is invalid: "A model should refuse a trace that contains an invalid
  word rather than run it as a NOP" (`30_encoding.md` R66). Safe: the hardware ignores the word and goes on (log 6). -/
  | invalidEvent (why : Invalid)
  /-- Raised by `fetch` when the configuration breaks `00_scope.md` R5 or R6: "A model refuses a configuration that
  breaks this constraint." Safe: the hardware goes on (log 7). -/
  | badConfiguration
  deriving DecidableEq, Repr

/-- The state: the configuration of the run, the six registers of `10_state.md` R20, the events still to come, and
the count of unspecified values drawn. -/
structure State where
  /-- The configuration record of `00_scope.md` R5, constant for a run. DESIGN CHOICE (log 1), safe: the host's step
  takes no second argument. -/
  cfg : Config
  /-- TICKCNT, the tick counter (R21). -/
  tickcnt : BitVec cfg.wTick
  /-- PHASE, the phase counter (R22). -/
  phase : Phase
  /-- RATE, the rate mode (R23). -/
  rate : Rate
  /-- DIR, the direction (R24). -/
  dir : Dir
  /-- RUN, the run enable (R26). -/
  run : Bool
  /-- OUT, the output port register; bits 1:0 are the phase lines (R27). -/
  out : BitVec cfg.portW
  /-- The event words the three agents have still to issue, oldest first. The order of events is the environment's
  choice (`60_exceptions.md` R131). DESIGN CHOICE (log 5), safe. -/
  events : List (EventWord cfg.portW)
  /-- How many `UNSPEC` values have been drawn. DESIGN CHOICE (log 4), safe. -/
  draws : Nat
  deriving DecidableEq, Repr

/-- The state right after reset under configuration `c`, with no event pending: the values of `10_state.md` R34.
The spec leaves OUT unspecified there, so it is an argument. -/
def State.resetWith (c : Config) (out : BitVec c.portW) : State :=
  { cfg := c, tickcnt := 0#c.wTick, phase := 0#2, rate := .normal, dir := .forward, run := false,
    out := out, events := [], draws := 0 }

/-- The state right after reset. OUT = 0 is a DESIGN CHOICE (log 3), unsafe: the spec gives `UNSPEC(PORT_W)`. The
configuration is a DESIGN CHOICE (log 2). -/
def State.reset : State := State.resetWith Config.covering 0

end Sys2Proof.Machine
end

