-- ==== Sys2Proof/Machine/Flags.lean ====
section
/-! DEFINITION. The values the block computes and never stores: the threshold mux THRESH and the compare EXPIRE
(`spec/10_state.md` R25, R31). There is no status flag and no condition code. -/

namespace Sys2Proof.Machine

/-- The threshold associated with a rate mode (`10_state.md` R25). -/
def threshold (c : Config) : Rate → BitVec c.wTick
  | .normal => c.tNormal
  | .fast => c.tFast

/-- THRESH, recomputed from RATE whenever it is read (`10_state.md` R25). -/
def thresh (s : State) : BitVec s.cfg.wTick := threshold s.cfg s.rate

/-- The incremented count, modulo `2^W_TICK` (`40_sequencer.md` R81). -/
def counted (s : State) : BitVec s.cfg.wTick := s.tickcnt + 1#s.cfg.wTick

/-- EXPIRE: the incremented count exceeds THRESH, unsigned and strict (`10_state.md` R31, `40_sequencer.md` R82). -/
def expire (s : State) : Bool := (thresh s).ult (counted s)

end Sys2Proof.Machine
end

