-- ==== Sys2Proof/Machine/Ops.lean ====
section
/-! DEFINITION. The shared operations on registers and on the output port (`spec/20_memory.md` R45, R55), the gate of
RUN, the draw of an unspecified value, and the fetch of the next event. The block has no memory (R40) and raises no
exception (`60_exceptions.md` R120): the entry, body and return of its one interrupt are the single operation TICK
(R125, R126), so no exception is taken here. -/

namespace Sys2Proof.Machine

/-- A bit-field write: the bits of `mask` come from `new`, the others stay; indivisible (`00_scope.md` R9,
`20_memory.md` R45). -/
def writeField (n : Nat) (mask old new : BitVec n) : BitVec n := (old &&& ~~~mask) ||| (new &&& mask)

/-- The mask of the phase lines OUT[1:0] (`20_memory.md` R41). -/
def phaseMask (n : Nat) : BitVec n := BitVec.ofNat n 3

/-- `OUT[1:0] <- p` (`40_sequencer.md` R84). -/
def writePhase (n : Nat) (out : BitVec n) (p : Phase) : BitVec n :=
  writeField n (phaseMask n) out (p.setWidth n)

/-- `OUT[PORT_W-1:2] <- v` (`42_control.md` R113). -/
def writeUpper (n : Nat) (out : BitVec n) (v : Nat) : BitVec n :=
  writeField n (~~~phaseMask n) out (portArg n v)

/-- The phase lines OUT[1:0] (`10_state.md` R27). -/
def phaseLines (n : Nat) (out : BitVec n) : Phase := out.setWidth 2

/-- The phase step: minus one for FORWARD, plus one for REVERSE, modulo 4 (`40_sequencer.md` R83). -/
def stepPhase (d : Dir) (p : Phase) : Phase :=
  match d with
  | .forward => p - 1#2
  | .reverse => p + 1#2

/-- The stepping arm of TICK: TICKCNT reloads 0, PHASE steps, the new phase goes to OUT[1:0]
(`40_sequencer.md` R80). -/
def emitStep (s : State) : State :=
  { s with
    tickcnt := 0#s.cfg.wTick
    phase := stepPhase s.dir s.phase
    out := writePhase s.cfg.portW s.out (stepPhase s.dir s.phase) }

/-- The idle arm of TICK: TICKCNT takes the incremented count, nothing else changes (`40_sequencer.md` R85). -/
def countTick (s : State) : State := { s with tickcnt := counted s }

/-- Commit RATE and DIR in one transition (`20_memory.md` R44). -/
def commitPair (r : Rate) (d : Dir) (s : State) : State := { s with rate := r, dir := d }

/-- Commit RATE alone (`20_memory.md` R43). -/
def commitRate (r : Rate) (s : State) : State := { s with rate := r }

/-- Commit DIR alone (`20_memory.md` R43). -/
def commitDir (d : Dir) (s : State) : State := { s with dir := d }

/-- RUN <- 1 (`42_control.md` R112). -/
def enable (s : State) : State := { s with run := true }

/-- The environment's write of the other port bits (`42_control.md` R113). -/
def writePort (v : Nat) (s : State) : State := { s with out := writeUpper s.cfg.portW s.out v }

/-- `UNSPEC(PORT_W)`: the next draw (`00_scope.md` R9). -/
def unspecOut (s : State) : BitVec s.cfg.portW := Config.unspec s.draws s.cfg.portW

/-- Every register to its reset value; OUT takes a fresh unspecified value (`42_control.md` R111, `10_state.md`
R34). -/
def resetRegisters (s : State) : State :=
  { s with
    tickcnt := 0#s.cfg.wTick
    phase := 0#2
    rate := .normal
    dir := .forward
    run := false
    out := unspecOut s
    draws := s.draws + 1 }

/-- The gate of RUN: while RUN = 0 the Sequencer's and the Arbiter's operations leave the state unchanged
(`10_state.md` R26, `40_sequencer.md` R91, `41_arbiter.md` R108). -/
def whenRunning (s t : State) : Host.Outcome State Fault Refusal :=
  if s.run then .next t else .next s

/-- Fetch the next event: `none` where no event is pending, the operation and the state without the word where there
is one, a refusal where the configuration is ill formed (`00_scope.md` R6) or the word invalid
(`30_encoding.md` R66). -/
def fetch (s : State) : Except Refusal (Option (Instr × State)) :=
  if s.cfg.wf then
    match s.events with
    | [] => .ok none
    | ev :: rest =>
      match decode s.cfg ev with
      | .ok i => .ok (some (i, { s with events := rest }))
      | .error why => .error (.invalidEvent why)
  else .error .badConfiguration

/-- The state with the number `w` put at the head of the pending events, as an event word of `8 + PORT_W` bits. -/
def pushEvent (w : Nat) (s : State) : State :=
  { s with events := BitVec.ofNat (8 + s.cfg.portW) w :: s.events }

end Sys2Proof.Machine
end

