-- ==== Sys2Proof/Machine/Arbiter.lean ====
section
/-! DEFINITION. The Arbiter family: SAMPLE, WRRATE, WRDIR (`spec/41_arbiter.md`). -/

namespace Sys2Proof.Machine

/-- The control law (`41_arbiter.md` R100, R101): fast-forward first, then fast-reverse, else normal forward. The
operands are line levels. -/
def policy (ffN frN : Bool) : Rate × Dir :=
  if asserted ffN then (.fast, .forward)
  else if asserted frN then (.fast, .reverse)
  else (.normal, .forward)

/-- SAMPLE (`41_arbiter.md` R100): commit the pair of the control law in one transition. -/
def execSample (ffN frN : Bool) (s : State) : Host.Outcome State Fault Refusal :=
  whenRunning s (commitPair (policy ffN frN).1 (policy ffN frN).2 s)

/-- WRRATE (`41_arbiter.md` R104). Its admission under `ARB_SPLIT` is the decoder's (`30_encoding.md` R66). -/
def execWrrate (r : Rate) (s : State) : Host.Outcome State Fault Refusal :=
  whenRunning s (commitRate r s)

/-- WRDIR (`41_arbiter.md` R105). Its admission under `ARB_SPLIT` is the decoder's (`30_encoding.md` R66). -/
def execWrdir (d : Dir) (s : State) : Host.Outcome State Fault Refusal :=
  whenRunning s (commitDir d s)

end Sys2Proof.Machine
end

