-- ==== Sys2Proof/Machine/Environment.lean ====
section
/-! DEFINITION. The environment family: NOP, RESET, START, PORTWR (`spec/42_control.md`). None is gated by RUN. -/

namespace Sys2Proof.Machine

/-- NOP (`42_control.md` R110). -/
def execNop (s : State) : Host.Outcome State Fault Refusal := .next s

/-- RESET (`42_control.md` R111). -/
def execReset (s : State) : Host.Outcome State Fault Refusal := .next (resetRegisters s)

/-- START (`42_control.md` R112); a second START has no effect (`92_eei_decisions.md` D24). -/
def execStart (s : State) : Host.Outcome State Fault Refusal := .next (enable s)

/-- PORTWR (`42_control.md` R113): it acts whatever RUN is. -/
def execPortwr (v : Nat) (s : State) : Host.Outcome State Fault Refusal := .next (writePort v s)

end Sys2Proof.Machine
end

