-- ==== Sys2Proof/Machine/Sequencer.lean ====
section
/-! DEFINITION. The Sequencer family: TICK (`spec/40_sequencer.md`). -/

namespace Sys2Proof.Machine

/-- TICK (`40_sequencer.md` R80): increment, compare, then the stepping arm or the idle arm; nothing while RUN = 0
(R91). It cannot fail (R90). -/
def execTick (s : State) : Host.Outcome State Fault Refusal :=
  whenRunning s (if expire s then emitStep s else countTick s)

end Sys2Proof.Machine
end

