-- ==== Sys2Proof/Machine/Dispatch.lean ====
section
/-! DEFINITION. The meaning of each operation: one arm per constructor of `Instr`. -/

namespace Sys2Proof.Machine

def exec (i : Instr) (s : State) : Host.Outcome State Fault Refusal :=
  match i with
  -- the environment
  | .nop => Sys2Proof.Machine.execNop s
  | .reset => Sys2Proof.Machine.execReset s
  | .start => Sys2Proof.Machine.execStart s
  -- the Sequencer
  | .tick => Sys2Proof.Machine.execTick s
  -- the Arbiter
  | .sample ffN frN => Sys2Proof.Machine.execSample ffN frN s
  | .wrrate r => Sys2Proof.Machine.execWrrate r s
  | .wrdir d => Sys2Proof.Machine.execWrdir d s
  -- the environment
  | .portwr v => Sys2Proof.Machine.execPortwr v s

end Sys2Proof.Machine
end

