-- ==== Sys2Proof/Machine/Step.lean ====
section
/-! DEFINITION. One step: the next event causes one operation (`spec/00_scope.md` R7). -/

namespace Sys2Proof.Machine

/-- One step of the block (`00_scope.md` R7): fetch the next event and run its operation, one atomic transition.
Where no event is pending, no operation happens and the state stays as it is (log 5). -/
def step (s : State) : Host.Outcome State Fault Refusal :=
  match fetch s with
  | .ok none => .next s
  | .ok (some (i, t)) => exec i t
  | .error why => .refused why

/-- `s` with the table word `w` of `nbits` bits as the next event (logs 5 and 15). The block has no stored program
(`10_state.md` R30): its next operation is the next event, and nothing but the event list is touched. -/
def State.withFetchWord (s : State) (nbits w : Nat) : State := pushEvent (w % 2 ^ nbits) s

end Sys2Proof.Machine
end

