-- ==== Sys2Proof/Machine/Timing.lean ====
section
/-! DEFINITION. The informative timing arithmetic (`spec/60_exceptions.md` R129, `spec/70_reset_and_hazards.md` R150,
R151). "No rule of the model depends on anything in this section": no step calls these functions (log 13). -/

namespace Sys2Proof.Machine

/-- `F_TICK = F_OSC / PRESCALER / (COMPARE + 1)` in ticks per second (`70_reset_and_hazards.md` R150). -/
def tickFrequency (fOsc : Rat) (prescaler compare : Nat) : Rat := fOsc / prescaler / (compare + 1)

/-- The step rate at constant threshold `T`: `F_TICK / (T + 1)` (`70_reset_and_hazards.md` R151). -/
def stepRate (fTick : Rat) (threshold : Nat) : Rat := fTick / (threshold + 1)

/-- Seconds for one full four-phase cycle: `4 * (T + 1) / F_TICK` (`70_reset_and_hazards.md` R151). -/
def cycleSeconds (fTick : Rat) (threshold : Nat) : Rat := 4 * (threshold + 1) / fTick

/-- The step rate a state runs at, where the configuration gives `F_TICK`. -/
def currentStepRate (s : State) : Option Rat := s.cfg.fTick.map (stepRate · (thresh s).toNat)

end Sys2Proof.Machine
end

