-- ==== Sys2Proof/Machine/Run.lean ====
section
/-! DEFINITION. Runs of several operations, and the count of phase transitions among consecutive ticks
(`spec/00_scope.md` R7, R12; `spec/40_sequencer.md` R86, R87). -/

namespace Sys2Proof.Machine

/-- Run the operations in order, stopping at the first stop: a finite piece of an execution (`00_scope.md` R7). -/
def execAll : List Instr → State → Host.Outcome State Fault Refusal
  | [], s => .next s
  | i :: is, s =>
    match exec i s with
    | .next t => execAll is t
    | .fault f => .fault f
    | .refused r => .refused r

/-- The number of phase transitions among `n` consecutive TICKs from `s`: the ticks that change PHASE
(`00_scope.md` R12). -/
def transitions : Nat → State → Nat
  | 0, _ => 0
  | n + 1, s =>
    match exec .tick s with
    | .next t => (if t.phase = s.phase then 0 else 1) + transitions n t
    | .fault _ => 0
    | .refused _ => 0

end Sys2Proof.Machine
end

