-- ==== Sys2Proof/Machine/Inputs.lean ====
section
/-! DEFINITION. How the outside world issues events: the wires that stand for the event word, their order when
several are active at once, and the pseudo-operations of the trace language (`spec/30_encoding.md` R63, R69;
`spec/60_exceptions.md` R124, R130). -/

namespace Sys2Proof.Machine

/-- The wires of one clock cycle (`30_encoding.md` R63): a strobe for each operation, its operands beside it. -/
structure Strobes where
  reset : Bool := false
  start : Bool := false
  tick : Bool := false
  /-- The levels (`ff_n`, `fr_n`) beside the sample strobe. -/
  sample : Option (Bool × Bool) := none
  wrrate : Option Rate := none
  wrdir : Option Dir := none
  portwr : Option Nat := none
  deriving DecidableEq, Repr

/-- The order in which coincident wires are taken to have happened (`60_exceptions.md` R124): RESET first and alone;
otherwise START, TICK, the Arbiter's operation, PORTWR. WRRATE before WRDIR in one cycle is a DESIGN CHOICE
(log 11), safe: they write different registers. -/
def serialize (w : Strobes) : List Instr :=
  if w.reset then [.reset]
  else (if w.start then [.start] else [])
    ++ (if w.tick then [.tick] else [])
    ++ (match w.sample with | some (ffN, frN) => [.sample ffN frN] | none => [])
    ++ (match w.wrrate with | some r => [.wrrate r] | none => [])
    ++ (match w.wrdir with | some d => [.wrdir d] | none => [])
    ++ (match w.portwr with | some v => [.portwr v] | none => [])

/-- The place of each operation in one cycle (`60_exceptions.md` R124): RESET; START; TICK; the Arbiter's operation;
PORTWR. NOP has no wire. -/
def wireRank : Instr → Nat
  | .nop => 0
  | .reset => 0
  | .start => 1
  | .tick => 2
  | .sample _ _ => 3
  | .wrrate _ => 3
  | .wrdir _ => 3
  | .portwr _ => 4

/-- The pseudo-operations of the trace language (`30_encoding.md` R69). -/
inductive Pseudo where
  /-- `TICKS n`. -/
  | ticks (n : Nat)
  /-- `BOOT`. -/
  | boot
  /-- `ITER ff_n, fr_n`: one Arbiter iteration with `ARB_SPLIT` false. -/
  | iter (ffN frN : Bool)
  /-- `ITER.RD ff_n, fr_n`: one iteration with `ARB_SPLIT` true, rate first. -/
  | iterRD (ffN frN : Bool)
  /-- `ITER.DR ff_n, fr_n`: the same, direction first. -/
  | iterDR (ffN frN : Bool)
  deriving DecidableEq, Repr

/-- The expansion of each pseudo-operation (`30_encoding.md` R69). "None adds behaviour." -/
def expandPseudo : Pseudo → List Instr
  | .ticks n => List.replicate n .tick
  | .boot => [.reset, .start]
  | .iter ffN frN => [.sample ffN frN]
  | .iterRD ffN frN => [.wrrate (policy ffN frN).1, .wrdir (policy ffN frN).2]
  | .iterDR ffN frN => [.wrdir (policy ffN frN).2, .wrrate (policy ffN frN).1]

/-- The state with further events issued after those already pending. -/
def offerEvents (is : List Instr) (s : State) : State :=
  { s with events := s.events ++ is.map (encode s.cfg) }

end Sys2Proof.Machine
end

