-- ==== Sys2Proof/Machine/Trace.lean ====
section
/-! DEFINITION. The trace language: one event or pseudo-operation per line (`spec/30_encoding.md` R68, R69). A line is
read to the operations it stands for, or to `none` where it is no line of the language. What R68 leaves open (blanks
around operands, upper case of mnemonics and names, an empty line) is a DESIGN CHOICE (log 12), safe. -/

namespace Sys2Proof.Machine

/-- Blank characters between the parts of a line. -/
def isBlank (ch : Char) : Bool := ch == ' ' || ch == '\t'

/-- A part of a line without the blanks at its ends. -/
def trimBlanks (cs : List Char) : List Char :=
  ((cs.dropWhile isBlank).reverse.dropWhile isBlank).reverse

/-- The value of a digit in a base of at most 16. -/
def digitValue (base : Nat) (ch : Char) : Option Nat :=
  let v := if '0' ≤ ch && ch ≤ '9' then some (ch.toNat - '0'.toNat)
    else if 'a' ≤ ch && ch ≤ 'f' then some (ch.toNat - 'a'.toNat + 10)
    else if 'A' ≤ ch && ch ≤ 'F' then some (ch.toNat - 'A'.toNat + 10)
    else none
  v.filter (· < base)

/-- The number a run of digits stands for, `acc` being the digits already read. -/
def readDigits (base acc : Nat) : List Char → Option Nat
  | [] => some acc
  | ch :: cs => (digitValue base ch).bind fun d => readDigits base (base * acc + d) cs

/-- A number: decimal, `0x` hexadecimal or `0b` binary (`30_encoding.md` R68). -/
def readNumber : List Char → Option Nat
  | [] => none
  | '0' :: 'x' :: ch :: cs => readDigits 16 0 (ch :: cs)
  | '0' :: 'b' :: ch :: cs => readDigits 2 0 (ch :: cs)
  | ch :: cs => readDigits 10 0 (ch :: cs)

/-- An operand that is 0 or 1. -/
def readBit (cs : List Char) : Option Bool :=
  (readNumber cs).bind fun n => if n = 0 then some false else if n = 1 then some true else none

/-- The operand of WRRATE: a code, or one of the names NORMAL and FAST (`30_encoding.md` R68). -/
def readRate (cs : List Char) : Option Rate :=
  if cs = "NORMAL".toList then some .normal
  else if cs = "FAST".toList then some .fast
  else (readBit cs).map rateOfCode

/-- The operand of WRDIR: a code, or one of the names FORWARD and REVERSE (`30_encoding.md` R68). -/
def readDir (cs : List Char) : Option Dir :=
  if cs = "FORWARD".toList then some .forward
  else if cs = "REVERSE".toList then some .reverse
  else (readBit cs).map dirOfCode

/-- The operand of PORTWR: a number below `2^(PORT_W-2)` (`30_encoding.md` R68). -/
def readPort (c : Config) (cs : List Char) : Option Nat :=
  (readNumber cs).filter (· < 2 ^ (c.portW - 2))

/-- The two line levels of SAMPLE and of the ITER pseudo-operations. -/
def readLevels (f : Bool → Bool → List Instr) : List (List Char) → Option (List Instr)
  | [a, b] => (readBit a).bind fun ffN => (readBit b).map fun frN => f ffN frN
  | _ => none

/-- A line whose mnemonic takes no operand. -/
def readPlain (is : List Instr) : List (List Char) → Option (List Instr)
  | [] => some is
  | _ => none

/-- A line whose mnemonic takes one operand. -/
def readOne {α : Type} (read : List Char → Option α) (f : α → List Instr) : List (List Char) → Option (List Instr)
  | [a] => (read a).map f
  | _ => none

/-- The operations of a mnemonic with its operands (`30_encoding.md` R68, R69). -/
def readOperation (c : Config) (mnemonic : List Char) (operands : List (List Char)) : Option (List Instr) :=
  if mnemonic = "NOP".toList then readPlain [.nop] operands
  else if mnemonic = "RESET".toList then readPlain [.reset] operands
  else if mnemonic = "START".toList then readPlain [.start] operands
  else if mnemonic = "TICK".toList then readPlain [.tick] operands
  else if mnemonic = "SAMPLE".toList then readLevels (fun a b => [.sample a b]) operands
  else if mnemonic = "WRRATE".toList then readOne readRate (fun r => [.wrrate r]) operands
  else if mnemonic = "WRDIR".toList then readOne readDir (fun d => [.wrdir d]) operands
  else if mnemonic = "PORTWR".toList then readOne (readPort c) (fun v => [.portwr v]) operands
  else if mnemonic = "TICKS".toList then readOne readNumber (fun n => expandPseudo (.ticks n)) operands
  else if mnemonic = "BOOT".toList then readPlain (expandPseudo .boot) operands
  else if mnemonic = "ITER".toList then readLevels (fun a b => expandPseudo (.iter a b)) operands
  else if mnemonic = "ITER.RD".toList then readLevels (fun a b => expandPseudo (.iterRD a b)) operands
  else if mnemonic = "ITER.DR".toList then readLevels (fun a b => expandPseudo (.iterDR a b)) operands
  else none

/-- One line of a trace: `;` starts a comment, the mnemonic stands first, operands after it separated by commas
(`30_encoding.md` R68). -/
def readLine (c : Config) (line : List Char) : Option (List Instr) :=
  let text := trimBlanks (line.takeWhile (· != ';'))
  if text = [] then some []
  else
    let rest := trimBlanks (text.dropWhile fun ch => !isBlank ch)
    readOperation c (text.takeWhile fun ch => !isBlank ch)
      (if rest = [] then [] else (rest.splitOn ',').map trimBlanks)

/-- A whole trace, one line after another; `none` where any line is no line of the language. -/
def readTrace (c : Config) : List (List Char) → Option (List Instr)
  | [] => some []
  | line :: lines => (readLine c line).bind fun is => (readTrace c lines).map fun more => is ++ more

end Sys2Proof.Machine
end

