-- ==== Sys2Proof/Safety.lean ====
section
/-! DEFINITION. What counts as a safe run, in the terms the statements use: the invariant of every state reachable
from reset (`spec/10_state.md` R32), the ownership of registers (R33), and what the phase lines show. -/

namespace Sys2Proof

open Sys2Proof.Machine

/-- I2 of `10_state.md` R32, with the configuration it presumes. -/
structure CountBounded (s : State) : Prop where
  /-- The configuration meets `00_scope.md` R6. -/
  cfgWf : s.cfg.wf = true
  /-- I2: "At all times TICKCNT <= max(T_NORMAL, T_FAST)". -/
  bounded : s.tickcnt.toNat ≤ max s.cfg.tNormal.toNat s.cfg.tFast.toNat

/-- The invariant of every state reachable from reset under a well-formed configuration (`10_state.md` R32), with
what holds while the block is held before START (R34, `40_sequencer.md` R91, `41_arbiter.md` R108). -/
structure Inv (s : State) : Prop extends CountBounded s where
  /-- I4: with `ARB_SPLIT` false the pair (NORMAL, REVERSE) is never reached. -/
  pairLegal : s.cfg.arbSplit = false → ¬(s.rate = .normal ∧ s.dir = .reverse)
  /-- While RUN = 0 the four registers the source lists hold their reset values. -/
  held : s.run = false → s.tickcnt.toNat = 0 ∧ s.phase = 0#2 ∧ s.rate = .normal ∧ s.dir = .forward

/-- I3 (`10_state.md` R32): the phase lines show PHASE. It holds from the first phase transition after a reset. -/
def LinesShowPhase (s : State) : Prop := phaseLines s.cfg.portW s.out = s.phase

/-- The registers of the ownership matrix (`10_state.md` R33); OUT is two disjointly owned bit fields. -/
inductive Reg where
  | tickcnt
  | phase
  | rate
  | dir
  | run
  | outLines
  | outUpper
  deriving DecidableEq, Repr

/-- The value of a register as a number, with the codes of `30_encoding.md` R61 and R72. -/
def readReg (s : State) : Reg → Nat
  | .tickcnt => s.tickcnt.toNat
  | .phase => s.phase.toNat
  | .rate => (rateCode s.rate).toNat
  | .dir => (dirCode s.dir).toNat
  | .run => s.run.toNat
  | .outLines => s.out.toNat % 4
  | .outUpper => s.out.toNat / 4

/-- `W` in the ownership matrix (`10_state.md` R33). RESET, which writes everything, is left out of it. -/
def mayWrite : Agent → Reg → Bool
  | .sequencer, .tickcnt => true
  | .sequencer, .phase => true
  | .sequencer, .outLines => true
  | .sequencer, .rate => false
  | .sequencer, .dir => false
  | .sequencer, .run => false
  | .sequencer, .outUpper => false
  | .arbiter, .rate => true
  | .arbiter, .dir => true
  | .arbiter, .tickcnt => false
  | .arbiter, .phase => false
  | .arbiter, .run => false
  | .arbiter, .outLines => false
  | .arbiter, .outUpper => false
  | .environment, .run => true
  | .environment, .outUpper => true
  | .environment, .tickcnt => false
  | .environment, .phase => false
  | .environment, .rate => false
  | .environment, .dir => false
  | .environment, .outLines => false

/-- `R` in the ownership matrix (`10_state.md` R33). -/
def mayRead : Agent → Reg → Bool
  | .sequencer, .tickcnt => true
  | .sequencer, .phase => true
  | .sequencer, .rate => true
  | .sequencer, .dir => true
  | .sequencer, .run => true
  | .sequencer, .outLines => false
  | .sequencer, .outUpper => false
  | .arbiter, .run => true
  | .arbiter, .tickcnt => false
  | .arbiter, .phase => false
  | .arbiter, .rate => false
  | .arbiter, .dir => false
  | .arbiter, .outLines => false
  | .arbiter, .outUpper => false
  | .environment, .tickcnt => false
  | .environment, .phase => false
  | .environment, .rate => false
  | .environment, .dir => false
  | .environment, .run => false
  | .environment, .outLines => false
  | .environment, .outUpper => false

end Sys2Proof
end

