-- ==== Sys2Proof/Certificates/Slice0/Obligations.lean ====
section
/-! DEFINITION. The statements about the block, for the provers. Each docstring names the rules of spec/ it rests on,
the spec's own decisions (D<n> of `92_eei_decisions.md`) and the log entries among them. -/

open Sys2Proof Sys2Proof.Machine

/-! ## The environment family -/

/-- `42_control.md` R110 (its coding is decision D12): NOP changes nothing, its word decodes to it, and "removing
every NOP from a trace never changes the final state". -/
def Obligations.NopChangesNothing : Prop :=
  (∀ s : State, exec .nop s = .next s) ∧
  (∀ c : Config, decode c (eventWord c.portW 0x0#4 0#c.portW) = .ok .nop) ∧
  (∀ (is : List Instr) (s : State), execAll is s = execAll (is.filter fun i => decide (i ≠ .nop)) s)

/-- `42_control.md` R111, `10_state.md` R34 and R25: RESET writes every register: TICKCNT, PHASE, RATE and DIR take the
source's defaults, RUN is 0 (decision D7), OUT is some value the statement does not fix (decision D9; the free value of
log 4, whose draw counter advances); THRESH is then `T_NORMAL`. -/
def Obligations.ResetLoadsResetValues : Prop :=
  (∀ s : State, ∃ o : BitVec s.cfg.portW,
    exec .reset s = .next
      { s with tickcnt := 0#s.cfg.wTick, phase := 0#2, rate := .normal, dir := .forward, run := false,
               out := o, draws := s.draws + 1 }) ∧
  (∀ s t : State, exec .reset s = .next t → (thresh t).toNat = s.cfg.tNormal.toNat) ∧
  (∀ c : Config, decode c (eventWord c.portW 0x1#4 0#c.portW) = .ok .reset)

/-- `42_control.md` R112 (decisions D7, D24): START writes RUN alone, and changes nothing where RUN is 1 already. -/
def Obligations.StartSetsRunAlone : Prop :=
  (∀ s : State, exec .start s = .next { s with run := true }) ∧
  (∀ s : State, s.run = true → exec .start s = .next s) ∧
  (∀ c : Config, decode c (eventWord c.portW 0x2#4 0#c.portW) = .ok .start)

/-- `42_control.md` R113 (decision D16): PORTWR writes OUT[PORT_W-1:2] with its operand bit for bit, whatever RUN is,
and changes neither the phase lines nor any other register. -/
def Obligations.PortwrWritesUpperBitsAlone : Prop :=
  (∀ (v : Nat) (s : State), ∃ o : BitVec s.cfg.portW,
    (∀ k, k < s.cfg.portW → o.getLsbD k = if k < 2 then s.out.getLsbD k else v.testBit (k - 2)) ∧
    exec (.portwr v) s = .next { s with out := o }) ∧
  (∀ (c : Config) (arg : BitVec c.portW), arg.getLsbD 0 = false → arg.getLsbD 1 = false →
    ∃ v : Nat, decode c (eventWord c.portW 0x7#4 arg) = .ok (.portwr v) ∧ v = (arg >>> 2).toNat)

/-- `42_control.md` R114 (a) and (b): PORTWR commutes with TICK, SAMPLE, WRRATE, WRDIR, START and NOP; NOP commutes with
everything. Derived by the spec from R110 to R113. -/
def Obligations.PortwrAndNopCommute : Prop :=
  (∀ (v : Nat) (i : Instr) (s : State), i ≠ .reset → (∀ v', i ≠ .portwr v') →
    execAll [.portwr v, i] s = execAll [i, .portwr v] s) ∧
  (∀ (i : Instr) (s : State), execAll [.nop, i] s = execAll [i, .nop] s)

/-- `42_control.md` R114 (c): an Arbiter operation that does not change RATE commutes with an idle TICK. Derived by the
spec. -/
def Obligations.ArbiterCommutesWithIdleTick : Prop :=
  ∀ (i : Instr) (s t : State), agentOf i = .arbiter → exec i s = .next t → t.rate = s.rate →
    expire s = false → execAll [i, .tick] s = execAll [.tick, i] s

/-! ## The Sequencer family -/

/-- `10_state.md` R25 and R31, `40_sequencer.md` R82: EXPIRE is the strict unsigned comparison of the incremented count
with the threshold RATE selects. -/
def Obligations.ExpireComparesIncrementedCount : Prop :=
  ∀ s : State, expire s = true ↔
    (if s.rate = .fast then s.cfg.tFast else s.cfg.tNormal).toNat
      < (s.tickcnt.toNat + 1) % 2 ^ s.cfg.wTick

/-- `40_sequencer.md` R80 (its RUN = 0 arm is also R91, decision D8; its code is decision D12): the whole operation TICK:
its word; nothing while RUN = 0; past the threshold TICKCNT reloads 0, PHASE
steps, the new phase goes to OUT[1:0] and OUT's other bits stay; otherwise TICKCNT takes the incremented count. Nothing
else changes in any case. -/
def Obligations.TickCountsAndSteps : Prop :=
  (∀ c : Config, decode c (eventWord c.portW 0x3#4 0#c.portW) = .ok .tick) ∧
  (∀ s : State, s.run = false → exec .tick s = .next s) ∧
  (∀ s : State, s.run = true →
    (if s.rate = .fast then s.cfg.tFast else s.cfg.tNormal).toNat < (s.tickcnt.toNat + 1) % 2 ^ s.cfg.wTick →
    ∃ o : BitVec s.cfg.portW,
      (∀ k, k < s.cfg.portW → o.getLsbD k =
        if k < 2 then (if s.dir = .forward then s.phase - 1#2 else s.phase + 1#2).getLsbD k else s.out.getLsbD k) ∧
      exec .tick s = .next
        { s with tickcnt := 0#s.cfg.wTick,
                 phase := if s.dir = .forward then s.phase - 1#2 else s.phase + 1#2,
                 out := o }) ∧
  (∀ s : State, s.run = true →
    (s.tickcnt.toNat + 1) % 2 ^ s.cfg.wTick ≤ (if s.rate = .fast then s.cfg.tFast else s.cfg.tNormal).toNat →
    ∃ c : BitVec s.cfg.wTick, c.toNat = (s.tickcnt.toNat + 1) % 2 ^ s.cfg.wTick ∧
      exec .tick s = .next { s with tickcnt := c })

/-- `40_sequencer.md` R83: the phase step, minus one modulo 4 for FORWARD and plus one for REVERSE; an operation but RESET
that changes PHASE is a TICK with RUN = 1 and EXPIRE, and the change is the step in the direction of DIR; a wider counter
that outputs its low two bits gives the same output. -/
def Obligations.PhaseStepsByOneModuloFour : Prop :=
  (∀ s : State, s.run = true → expire s = true → ∃ t : State, exec .tick s = .next t ∧
    (s.dir = .forward → (t.phase.toNat : Int) = ((s.phase.toNat : Int) - 1) % 4) ∧
    (s.dir = .reverse → (t.phase.toNat : Int) = ((s.phase.toNat : Int) + 1) % 4)) ∧
  (∀ (i : Instr) (s t : State), i ≠ .reset → exec i s = .next t → t.phase ≠ s.phase →
    i = .tick ∧ s.run = true ∧ expire s = true ∧ t.phase = stepPhase s.dir s.phase) ∧
  (∀ (k : Nat) (x : BitVec k), 2 ≤ k →
    (x - 1#k).setWidth 2 = x.setWidth 2 - 1#2 ∧ (x + 1#k).setWidth 2 = x.setWidth 2 + 1#2)

/-- `40_sequencer.md` R84 and R85: on a stepping tick the phase lines take the new PHASE, whatever they showed, and the
other port bits stay; an idle tick changes TICKCNT alone; and no operation but a stepping TICK (and RESET, whose OUT is
unspecified) changes the phase lines. -/
def Obligations.LinesWrittenExactlyOnSteppingTicks : Prop :=
  (∀ s : State, s.run = true → expire s = true → 2 ≤ s.cfg.portW → ∃ t : State, exec .tick s = .next t ∧
    t.phase = stepPhase s.dir s.phase ∧ readReg t .outLines = t.phase.toNat ∧
    readReg t .outUpper = readReg s .outUpper) ∧
  (∀ s : State, s.run = true → expire s = false → exec .tick s = .next { s with tickcnt := s.tickcnt + 1#s.cfg.wTick }) ∧
  (∀ (i : Instr) (s t : State), i ≠ .reset → exec i s = .next t → readReg t .outLines ≠ readReg s .outLines →
    i = .tick ∧ s.run = true ∧ expire s = true)

/-- `40_sequencer.md` R81 with `10_state.md` R32 (I2): while TICKCNT is bounded as I2 says the increment never wraps,
and a running TICK leaves TICKCNT at 0 or one higher, at most the threshold it used. Derived by the spec. -/
def Obligations.CounterStaysWithinThreshold : Prop :=
  ∀ s : State, CountBounded s → s.run = true →
    s.tickcnt.toNat + 1 < 2 ^ s.cfg.wTick ∧
    ∃ t : State, exec .tick s = .next t ∧ (t.tickcnt.toNat = 0 ∨ t.tickcnt.toNat = s.tickcnt.toNat + 1) ∧
      t.tickcnt.toNat ≤ (thresh s).toNat

/-- `40_sequencer.md` R86, its two sentences on transitions: while RUN = 1 and the threshold stays T, exactly one phase
transition occurs per T + 1 ticks; T = 0 makes every tick a stepping tick. Its sentence on the step rate is
`StepRateIsTransitionsPerTick`. -/
def Obligations.OneTransitionPerPeriod : Prop :=
  (∀ s : State, CountBounded s → s.run = true → transitions ((thresh s).toNat + 1) s = 1) ∧
  (∀ (n : Nat) (s : State), CountBounded s → s.run = true → (thresh s).toNat = 0 → transitions n s = n)

/-- `40_sequencer.md` R87 (derived by the spec by induction): the exact number of phase transitions among N consecutive
TICKs at constant threshold T from count c0, and the ticks at which they occur. -/
def Obligations.ExactTransitionCount : Prop :=
  (∀ (n : Nat) (s : State), CountBounded s → s.run = true → s.tickcnt.toNat ≤ (thresh s).toNat →
    transitions n s = (n + s.tickcnt.toNat) / ((thresh s).toNat + 1)) ∧
  (∀ (n : Nat) (s : State), CountBounded s → s.run = true → (thresh s).toNat < s.tickcnt.toNat → 1 ≤ n →
    transitions n s = 1 + (n - 1) / ((thresh s).toNat + 1)) ∧
  (∀ (m : Nat) (s : State), CountBounded s → s.run = true → s.tickcnt.toNat ≤ (thresh s).toNat → 1 ≤ m →
    (transitions m s ≠ transitions (m - 1) s ↔
      ∃ k, 1 ≤ k ∧ m = k * ((thresh s).toNat + 1) - s.tickcnt.toNat))

/-- `40_sequencer.md` R80, R84, R85, R87, R92: the state after n consecutive TICKs in closed form, from a count c0 at most
the threshold T or above it, q being the number of phase transitions among them: the count, the phase moved by q positions
in the direction of DIR, OUT untouched while q is 0, its phase lines equal to PHASE from the first transition on, its other
bits and everything else unchanged. Derived. -/
def Obligations.TicksInClosedForm : Prop :=
  ∀ (n q r : Nat) (s : State), CountBounded s → s.run = true →
    ((s.tickcnt.toNat ≤ (thresh s).toNat ∧ q = (n + s.tickcnt.toNat) / ((thresh s).toNat + 1) ∧
        r = (n + s.tickcnt.toNat) % ((thresh s).toNat + 1)) ∨
      ((thresh s).toNat < s.tickcnt.toNat ∧ 1 ≤ n ∧ q = 1 + (n - 1) / ((thresh s).toNat + 1) ∧
        r = (n - 1) % ((thresh s).toNat + 1))) →
    ∃ (c : BitVec s.cfg.wTick) (p : Phase) (o : BitVec s.cfg.portW),
      execAll (List.replicate n .tick) s = .next { s with tickcnt := c, phase := p, out := o } ∧
      c.toNat = r ∧
      (p.toNat : Int) = (if s.dir = .forward then (s.phase.toNat : Int) - q else (s.phase.toNat : Int) + q) % 4 ∧
      o.toNat / 4 = readReg s .outUpper ∧ (q = 0 → o = s.out) ∧ (1 ≤ q → o.toNat % 4 = p.toNat)

/-- `40_sequencer.md` R88 (derived by the spec): whatever an Arbiter operation commits, TICKCNT is kept and the threshold
it leaves selected acts at the next TICK: if the count c has reached the new threshold T' the very next tick steps,
otherwise the first step comes after `T' + 1 - c` ticks; that first step goes in the direction just committed; and an
operation that leaves RATE as it was, a change of DIR among them, does not move the ticks that step. -/
def Obligations.ThresholdChangeActsAtNextTick : Prop :=
  (∀ (i : Instr) (s : State), agentOf i = .arbiter → CountBounded s → s.run = true →
    ∃ t : State, exec i s = .next t ∧ t.tickcnt.toNat = s.tickcnt.toNat ∧
      ((thresh t).toNat ≤ t.tickcnt.toNat → transitions 1 t = 1) ∧
      (t.tickcnt.toNat < (thresh t).toNat →
        transitions ((thresh t).toNat - t.tickcnt.toNat) t = 0 ∧
        transitions ((thresh t).toNat + 1 - t.tickcnt.toNat) t = 1) ∧
      ∃ u : State,
        execAll (List.replicate ((thresh t).toNat + 1 - min t.tickcnt.toNat (thresh t).toNat) .tick) t = .next u ∧
        u.phase = stepPhase t.dir s.phase) ∧
  (∀ (i : Instr) (s t : State), agentOf i = .arbiter → exec i s = .next t → t.rate = s.rate →
    ∀ n : Nat, transitions n t = transitions n s)

/-- `40_sequencer.md` R89 (derived by the spec): with a threshold of `2^W_TICK - 1` no tick ever steps and TICKCNT counts
around modulo `2^W_TICK`; the model's `step` refuses such a configuration (`00_scope.md` R6, log 7). -/
def Obligations.ExcludedThresholdNeverSteps : Prop :=
  (∀ (n : Nat) (s : State), (thresh s).toNat = 2 ^ s.cfg.wTick - 1 → transitions n s = 0) ∧
  (∀ (n : Nat) (s : State), s.run = true → (thresh s).toNat = 2 ^ s.cfg.wTick - 1 →
    ∃ c : BitVec s.cfg.wTick, c.toNat = (s.tickcnt.toNat + n) % 2 ^ s.cfg.wTick ∧
      execAll (List.replicate n .tick) s = .next { s with tickcnt := c }) ∧
  (∀ s : State, (thresh s).toNat = 2 ^ s.cfg.wTick - 1 → step s = .refused .badConfiguration)

/-- `40_sequencer.md` R92: one electrical cycle takes `4 * (T + 1)` ticks: PHASE is then back at its value, and is away
from it after each of the three periods before; and stepping one way n times and then the other way n times returns PHASE
to its starting value. From every bounded count. Derived. -/
def Obligations.FourStepCycleAndReversal : Prop :=
  (∀ s : State, CountBounded s → s.run = true →
    ∃ t : State, execAll (List.replicate (4 * ((thresh s).toNat + 1)) .tick) s = .next t ∧ t.phase = s.phase) ∧
  (∀ (k : Nat) (s : State), CountBounded s → s.run = true → 0 < k → k < 4 →
    ∃ t : State, execAll (List.replicate (k * ((thresh s).toNat + 1)) .tick) s = .next t ∧ t.phase ≠ s.phase) ∧
  (∀ (n : Nat) (d : Dir) (s : State), CountBounded s → s.run = true → d ≠ s.dir →
    ∃ t : State,
      execAll (List.replicate (n * ((thresh s).toNat + 1)) .tick ++ [.wrdir d]
        ++ List.replicate (n * ((thresh s).toNat + 1)) .tick) s = .next t ∧ t.phase = s.phase)

/-- `30_encoding.md` R62 (derived by the spec): the order in which the phase lines visit the four phase states from the
reset value, FORWARD 0, 3, 2, 1, 0 and REVERSE 0, 1, 2, 3, 0 and so on, at every threshold T: what they show from the k-th
phase transition on, for the T ticks before the next (R87 says at which ticks the transitions come). -/
def Obligations.LinesVisitFourStatesInOrder : Prop :=
  ∀ (k j n : Nat) (s : State), CountBounded s → s.run = true → s.phase = 0#2 → 1 ≤ k → j ≤ (thresh s).toNat →
    ((s.tickcnt.toNat ≤ (thresh s).toNat ∧ n = k * ((thresh s).toNat + 1) - s.tickcnt.toNat + j) ∨
      ((thresh s).toNat < s.tickcnt.toNat ∧ n = 1 + (k - 1) * ((thresh s).toNat + 1) + j)) →
    ∃ t : State, execAll (List.replicate n .tick) s = .next t ∧
      readReg t .outLines = (if s.dir = .forward then 4 - k % 4 else k) % 4

/-- `70_reset_and_hazards.md` R143: from any state under a well-formed configuration, RESET, START and up to `T_NORMAL`
ticks leave PHASE at 0 with every tick counted, and the `(T_NORMAL + 1)`-th TICK is the first phase transition: PHASE 3 and
OUT[1:0] = 0b11. Derived (START and RUN are decisions D7, D8). -/
def Obligations.FirstTransitionAfterBoot : Prop :=
  ∀ s : State, s.cfg.wf = true →
    (∀ k, k ≤ s.cfg.tNormal.toNat →
      ∃ t : State, execAll ([.reset, .start] ++ List.replicate k .tick) s = .next t ∧
        t.phase = 0#2 ∧ t.tickcnt.toNat = k ∧ t.rate = .normal ∧ t.dir = .forward) ∧
    ∃ u : State, execAll ([.reset, .start] ++ List.replicate (s.cfg.tNormal.toNat + 1) .tick) s = .next u ∧
      u.phase = 3#2 ∧ readReg u .outLines = 3 ∧ u.tickcnt.toNat = 0

/-! ## The Arbiter family -/

/-- `41_arbiter.md` R100 and R101 (the RUN = 0 arm is also R108, decision D8; the code is decision D12): SAMPLE: its
encoding, nothing while RUN = 0, the complete truth table with RATE and DIR
committed in one transition and everything else unchanged, THRESH after it, and the forward-wins tie-break. -/
def Obligations.SampleCommitsPolicyPair : Prop :=
  (∀ (c : Config) (arg : BitVec c.portW), (∀ k, 2 ≤ k → arg.getLsbD k = false) →
    decode c (eventWord c.portW 0x4#4 arg) = .ok (.sample (arg.getLsbD 0) (arg.getLsbD 1))) ∧
  (∀ (ffN frN : Bool) (s : State), s.run = false → exec (.sample ffN frN) s = .next s) ∧
  (∀ s : State, s.run = true →
    exec (.sample false false) s = .next { s with rate := .fast, dir := .forward } ∧
    exec (.sample false true) s = .next { s with rate := .fast, dir := .forward } ∧
    exec (.sample true false) s = .next { s with rate := .fast, dir := .reverse } ∧
    exec (.sample true true) s = .next { s with rate := .normal, dir := .forward }) ∧
  (∀ (ffN frN : Bool) (s t : State), s.run = true → exec (.sample ffN frN) s = .next t →
    (thresh t).toNat = (if ffN = true ∧ frN = true then s.cfg.tNormal else s.cfg.tFast).toNat) ∧
  (∀ (a b : Bool) (s : State), exec (.sample false a) s = exec (.sample false b) s)

/-- `41_arbiter.md` R102: the control law is memoryless: two running states, however different, are left with the same
pair by the same levels; both lines deasserted give (NORMAL, FORWARD) regardless of prior state; the next TICK uses what
was committed last. -/
def Obligations.SampleIsMemoryless : Prop :=
  (∀ (ffN frN : Bool) (s s' : State), s.run = true → s'.run = true →
    ∃ t t' : State, exec (.sample ffN frN) s = .next t ∧ exec (.sample ffN frN) s' = .next t' ∧
      t.rate = t'.rate ∧ t.dir = t'.dir) ∧
  (∀ s : State, s.run = true → ∃ t : State, exec (.sample true true) s = .next t ∧
    t.rate = .normal ∧ t.dir = .forward) ∧
  (∀ (ffN frN : Bool) (s : State), s.run = true →
    execAll [.sample ffN frN, .tick] s
      = exec .tick { s with rate := (policy ffN frN).1, dir := (policy ffN frN).2 })

/-- `41_arbiter.md` R103: a second SAMPLE with the same operands changes nothing, and after any SAMPLE with RUN = 1 the
pair is the policy of its operands. The general form is derived by the spec. -/
def Obligations.SampleIsIdempotent : Prop :=
  (∀ (ffN frN : Bool) (s : State),
    execAll [.sample ffN frN, .sample ffN frN] s = execAll [.sample ffN frN] s) ∧
  (∀ (ffN frN : Bool) (s : State), s.run = true → ∃ t : State, exec (.sample ffN frN) s = .next t ∧
    (t.rate, t.dir) = policy ffN frN)

/-- `20_memory.md` R48 and `41_arbiter.md` R107: "last-sample-wins": whatever the Arbiter committed before, a SAMPLE leaves
what it would have left alone. Derived. -/
def Obligations.LastSampleWins : Prop :=
  ∀ (is : List Instr) (ffN frN : Bool) (s : State), (∀ i ∈ is, agentOf i = .arbiter) →
    execAll (is ++ [.sample ffN frN]) s = execAll [.sample ffN frN] s

/-- `41_arbiter.md` R104 and R105 (decision D10): WRRATE commits RATE alone and WRDIR commits DIR alone, nothing while
RUN = 0, and their words are admitted exactly when `ARB_SPLIT` is true. -/
def Obligations.SplitWritesCommitOneField : Prop :=
  (∀ (r : Rate) (s : State), s.run = true → exec (.wrrate r) s = .next { s with rate := r }) ∧
  (∀ (d : Dir) (s : State), s.run = true → exec (.wrdir d) s = .next { s with dir := d }) ∧
  (∀ (r : Rate) (s : State), s.run = false → exec (.wrrate r) s = .next s) ∧
  (∀ (d : Dir) (s : State), s.run = false → exec (.wrdir d) s = .next s) ∧
  (∀ (c : Config) (arg : BitVec c.portW), (∀ k, 1 ≤ k → arg.getLsbD k = false) →
    decode c (eventWord c.portW 0x5#4 arg) =
      (if c.arbSplit then .ok (.wrrate (if arg.getLsbD 0 then .fast else .normal)) else .error .notAdmitted)) ∧
  (∀ (c : Config) (arg : BitVec c.portW), (∀ k, 1 ≤ k → arg.getLsbD k = false) →
    decode c (eventWord c.portW 0x6#4 arg) =
      (if c.arbSplit then .ok (.wrdir (if arg.getLsbD 0 then .reverse else .forward)) else .error .notAdmitted))

/-- `41_arbiter.md` R106 and `20_memory.md` R44 (decisions D10, D26): the two halves of a split iteration, in either order
with nothing between them, do what one SAMPLE does; a TICK between them uses the new rate with the old direction, or the
old rate with the new direction. -/
def Obligations.SplitHalvesAndTickBetween : Prop :=
  (∀ (ffN frN : Bool) (s : State),
    execAll (expandPseudo (.iterRD ffN frN)) s = execAll (expandPseudo (.iter ffN frN)) s ∧
    execAll (expandPseudo (.iterDR ffN frN)) s = execAll (expandPseudo (.iter ffN frN)) s) ∧
  (∀ (r : Rate) (s : State), s.run = true →
    execAll [.wrrate r, .tick] s = exec .tick { s with rate := r }) ∧
  (∀ (d : Dir) (s : State), s.run = true →
    execAll [.wrdir d, .tick] s = exec .tick { s with dir := d })

/-- `20_memory.md` R46: writing a register the value it already holds changes nothing. Derived. -/
def Obligations.RewritingHeldValueIsInvisible : Prop :=
  (∀ s : State, exec (.wrrate s.rate) s = .next s) ∧
  (∀ s : State, exec (.wrdir s.dir) s = .next s) ∧
  (∀ (ffN frN : Bool) (s : State), (s.rate, s.dir) = policy ffN frN → exec (.sample ffN frN) s = .next s) ∧
  (∀ s : State, exec (.portwr (readReg s .outUpper)) s = .next s)

/-! ## RUN, completion and the step -/

/-- `40_sequencer.md` R91 and `41_arbiter.md` R108 (decision D8): while RUN = 0 the operations of the Sequencer and of the
Arbiter complete and leave the state unchanged. -/
def Obligations.HeldBlockIgnoresComponents : Prop :=
  ∀ (i : Instr) (s : State), s.run = false → agentOf i ≠ .environment → exec i s = .next s

/-- `10_state.md` R26 (decision D7): RUN is set by START and cleared only by RESET, as operations and as steps: a step
that clears RUN consumed the RESET word, one that sets it consumed the START word. -/
def Obligations.RunChangesOnlyByStartAndReset : Prop :=
  (∀ (i : Instr) (s t : State), exec i s = .next t →
    (s.run = false → t.run = true → i = .start) ∧ (s.run = true → t.run = false → i = .reset)) ∧
  (∀ s t : State, step s = .next t →
    (s.run = false → t.run = true → s.events.head? = some (encode s.cfg .start)) ∧
    (s.run = true → t.run = false → s.events.head? = some (encode s.cfg .reset)))

/-- `60_exceptions.md` R120: no exception, in any state, for any operation: `exec` answers a state for every (state,
operation) pair; a step never faults, and under a well-formed configuration its only other outcome is the decoder's
verdict invalid on the next word. -/
def Obligations.EveryOperationCompletes : Prop :=
  (∀ (i : Instr) (s : State), ∃ t : State, exec i s = .next t) ∧
  (∀ (s : State) (f : Fault), step s ≠ .fault f) ∧
  (∀ (s : State) (r : Refusal), s.cfg.wf = true → step s = .refused r →
    ∃ ev rest why, s.events = ev :: rest ∧ decode s.cfg ev = .error why ∧ r = .invalidEvent why)

/-- `00_scope.md` R7 and `20_memory.md` R47: a step runs the operation of the next event on the state without that word,
for every well-formed operation encoded there; where no event is pending nothing happens (log 5). -/
def Obligations.StepRunsTheNextEvent : Prop :=
  (∀ (s : State) (ev : EventWord s.cfg.portW) (rest : List (EventWord s.cfg.portW)) (i : Instr),
    s.cfg.wf = true → s.events = ev :: rest → decode s.cfg ev = .ok i →
    step s = exec i { s with events := rest }) ∧
  (∀ (s : State) (rest : List (EventWord s.cfg.portW)) (i : Instr),
    s.cfg.wf = true → i.wf s.cfg = true → s.events = encode s.cfg i :: rest →
    step s = exec i { s with events := rest }) ∧
  (∀ s : State, s.cfg.wf = true → s.events = [] → step s = .next s)

/-- `00_scope.md` R5 and R7: no step changes the configuration, and a step consumes exactly the next event. Derived; the
two fields are the model's own (logs 1 and 5). -/
def Obligations.StepKeepsConfigAndConsumesOneEvent : Prop :=
  ∀ s t : State, step s = .next t →
    t.cfg = s.cfg ∧ t.events.map BitVec.toNat = s.events.tail.map BitVec.toNat

/-! ## Encoding -/

/-- `30_encoding.md` R65 and `95_test_vectors.md` section 2.7 (decision D12): a few words written out from the spec's
encoding decode to the operations they stand for. `decodeTableWord` reads a number as the event word (log 15) under the
configuration of `State.reset`, whose `ARB_SPLIT` = true is the model's choice (log 2): 0x5001 and 0x6001 decode because of
it, and are invalid under R5's default, ARB_SPLIT = false. -/
def Obligations.SpecWordsDecode : Prop :=
  [0x0000, 0x1000, 0x2000, 0x3000, 0x4001, 0x4002, 0x5001, 0x6001, 0x70A4, 0x70FC].map (decodeTableWord 16) =
    [some .nop, some .reset, some .start, some .tick, some (.sample true false), some (.sample false true),
     some (.wrrate .fast), some (.wrdir .reverse), some (.portwr 0x29), some (.portwr 0x3F)]

/-- `30_encoding.md` R70 (decision D12): decode(encode(e)) = e for every admitted event e, under every well-formed
configuration and with every operand value. -/
def Obligations.DecodeOfEncodeIsIdentity : Prop :=
  ∀ (c : Config) (i : Instr), c.wf = true → i.wf c = true → decode c (encode c i) = .ok i

/-- `30_encoding.md` R70 (decision D12): encoding is the inverse of decoding: a word that decodes is the encoding of the
well-formed operation it decodes to, so each operation has one word. -/
def Obligations.EncodeOfDecodeIsIdentity : Prop :=
  ∀ (c : Config) (ev : EventWord c.portW) (i : Instr), c.wf = true → decode c ev = .ok i →
    i.wf c = true ∧ encode c i = ev

/-- `30_encoding.md` R66 with R64 (decisions D12, D13): exactly which event words are invalid, and that a step refuses one
(log 6). -/
def Obligations.InvalidWordsAreExactlyTheseAndRefused : Prop :=
  (∀ (c : Config) (ev : EventWord c.portW),
    (∃ why, decode c ev = .error why) ↔
      8 ≤ (opField c.portW ev).toNat ∨ zField c.portW ev ≠ 0#4 ∨
      ((opField c.portW ev = 5#4 ∨ opField c.portW ev = 6#4) ∧ c.arbSplit = false) ∨
      ((opField c.portW ev).toNat ≤ 3 ∧ argField c.portW ev ≠ 0#c.portW) ∨
      (opField c.portW ev = 4#4 ∧ ∃ k, 2 ≤ k ∧ (argField c.portW ev).getLsbD k = true) ∨
      ((opField c.portW ev = 5#4 ∨ opField c.portW ev = 6#4) ∧ ∃ k, 1 ≤ k ∧ (argField c.portW ev).getLsbD k = true) ∨
      (opField c.portW ev = 7#4 ∧ ((argField c.portW ev).getLsbD 0 = true ∨ (argField c.portW ev).getLsbD 1 = true))) ∧
  (∀ (s : State) (ev : EventWord s.cfg.portW) (rest : List (EventWord s.cfg.portW)) (why : Invalid),
    s.cfg.wf = true → s.events = ev :: rest → decode s.cfg ev = .error why →
    step s = .refused (.invalidEvent why))

/-- `30_encoding.md` R65: the opcode map at `PORT_W` = 8: no word selects two rows, and a word decodes exactly when an
admitted row selects it, to an operation of that row's mnemonic and agent. Derived (decision D12). -/
def Obligations.OpcodeTableAgreesWithDecoder : Prop :=
  (opcodeTable.Pairwise fun a b => ∀ w : BitVec 16, ¬(a.selects true w = true ∧ b.selects true w = true)) ∧
  (∀ (split : Bool) (w : EventWord Config.default.portW) (i : Instr),
    decode { Config.default with arbSplit := split } w = .ok i →
    ∃ row ∈ opcodeTable, row.selects split w = true ∧ row.mnemonic = mnemonicOf i ∧ row.agent = agentOf i) ∧
  (∀ (split : Bool) (w : EventWord Config.default.portW), ∀ row ∈ opcodeTable, row.selects split w = true →
    ∃ i, decode { Config.default with arbSplit := split } w = .ok i ∧ row.mnemonic = mnemonicOf i)

/-- `30_encoding.md` R68 and R69 (decision D20): lines of the trace language are read to their operations. The spec's own
examples are `SAMPLE 0, 1` and `PORTWR 0x29`, with their words; the trace around them is made here in the forms of R68 and
R69. That blanks and an empty line are accepted, and that a line is read whatever `ARB_SPLIT` is (its admission is the
decoder's), is the model's choice (log 12). -/
def Obligations.TraceExamplesAreRead : Prop :=
  (∀ split : Bool,
    readTrace { Config.default with arbSplit := split } ["BOOT".toList, "SAMPLE 0, 1  ; fast-forward pressed".toList,
        "PORTWR 0x29".toList, "TICKS 2".toList, "".toList, "WRRATE FAST".toList, "WRDIR 0b1".toList,
        "ITER.DR 1, 0".toList] =
      some [.reset, .start, .sample false true, .portwr 0x29, .tick, .tick, .wrrate .fast, .wrdir .reverse,
        .wrdir .reverse, .wrrate .fast]) ∧
  readLine Config.default "PORTWR 64".toList = none ∧ readLine Config.default "SAMPLE 2, 0".toList = none ∧
  (encode Config.default (.sample false true)).toNat = 0x4002 ∧
  (encode Config.default (.portwr 0x29)).toNat = 0x70A4

/-! ## Reset, the invariant and the rules about every operation -/

/-- `10_state.md` R34 (RUN is decision D7): the registers of the state right after reset, under every configuration and
with every value of OUT, which the spec leaves unspecified; no event is pending (log 5). `State.reset` is one of these
states: its configuration and its OUT are the model's choice (logs 2 and 3). -/
def Obligations.ResetStateHoldsResetValues : Prop :=
  (∀ (c : Config) (o : BitVec c.portW), (State.resetWith c o).cfg = c ∧
    (State.resetWith c o).tickcnt.toNat = 0 ∧ (State.resetWith c o).phase = 0#2 ∧
    (State.resetWith c o).rate = .normal ∧ (State.resetWith c o).dir = .forward ∧
    (State.resetWith c o).run = false ∧ (thresh (State.resetWith c o)).toNat = c.tNormal.toNat ∧
    (State.resetWith c o).events = []) ∧
  ∃ o, State.reset = State.resetWith Config.covering o

/-- `10_state.md` R32 and R34: the invariant holds at reset, under every well-formed configuration and with every OUT, and
of `State.reset`, whose configuration and OUT are the model's choice (logs 2 and 3). The invariant's clause about RUN = 0 is
read from the spec by inference (log 14). -/
def Obligations.InvariantHoldsAtReset : Prop :=
  (∀ (c : Config) (o : BitVec c.portW), c.wf = true → Inv (State.resetWith c o)) ∧ Inv State.reset

/-- `10_state.md` R32 (I2, I4): every step keeps the invariant, from every state that meets it. Its clause about RUN = 0 is
read from the spec by inference (log 14). -/
def Obligations.InvariantKeptByEveryStep : Prop :=
  ∀ s t : State, Inv s → step s = .next t → Inv t

/-- `10_state.md` R32 (I4), `20_memory.md` R44: from reset, with every sequence of event words, every state reached meets
the invariant, so with `ARB_SPLIT` false the pair (NORMAL, REVERSE) is never reached; with `ARB_SPLIT` true it is. The
invariant's clause about RUN = 0 is read from the spec by inference (log 14); the list of events is the model's (log 5). -/
def Obligations.ReachableStatesMeetInvariant : Prop :=
  (∀ (c : Config) (o : BitVec c.portW) (evs : List (EventWord c.portW)) (n : Nat) (t : State), c.wf = true →
    Sys2Proof.core.run n { State.resetWith c o with events := evs } = .next t →
    Inv t ∧ (c.arbSplit = false → ¬(t.rate = .normal ∧ t.dir = .reverse))) ∧
  (∀ (c : Config) (o : BitVec c.portW), c.wf = true → c.arbSplit = true →
    ∃ (evs : List (EventWord c.portW)) (n : Nat) (t : State),
      Sys2Proof.core.run n { State.resetWith c o with events := evs } = .next t ∧ t.rate = .normal ∧ t.dir = .reverse)

/-- `10_state.md` R32 (I3): from the first phase transition onward the phase lines show PHASE, until a RESET: as a run of
operations after a stepping TICK, and as steps. Derived by the spec. -/
def Obligations.LinesShowPhaseFromFirstTransition : Prop :=
  (∀ (post : List Instr) (s : State), 2 ≤ s.cfg.portW → s.run = true → expire s = true → .reset ∉ post →
    ∃ t : State, execAll (.tick :: post) s = .next t ∧ LinesShowPhase t) ∧
  (∀ s t : State, LinesShowPhase s → step s = .next t → s.events.head? ≠ some (encode s.cfg .reset) →
    LinesShowPhase t)

/-- `10_state.md` R33 (decision D19), R32 (I5): no operation but RESET changes a register its agent may not write by the
ownership matrix; none changes the configuration, the pending events, or the count of draws. The frame of every
operation. -/
def Obligations.OnlyOwnersWriteRegisters : Prop :=
  ∀ (i : Instr) (s t : State), i ≠ .reset → exec i s = .next t →
    (∀ r : Reg, mayWrite (agentOf i) r = false → readReg t r = readReg s r) ∧
    t.cfg = s.cfg ∧ t.events.map BitVec.toNat = s.events.map BitVec.toNat ∧ t.draws = s.draws

/-- `10_state.md` R33 (decision D19): an operation but RESET reads only the registers its agent may read by the ownership
matrix: of two states under one configuration that agree on those, it leaves every register either equal in both or
unchanged in both. -/
def Obligations.OperationsReadOnlyWhatTheyMay : Prop :=
  ∀ (i : Instr) (s s' t t' : State), i ≠ .reset → s.cfg = s'.cfg →
    (∀ r : Reg, mayRead (agentOf i) r = true → readReg s r = readReg s' r) →
    exec i s = .next t → exec i s' = .next t' →
    ∀ r : Reg, readReg t r = readReg t' r ∨ (readReg t r = readReg s r ∧ readReg t' r = readReg s' r)

/-- `60_exceptions.md` R124 (decision D14): coincident wires. RESET is alone. In any other cycle exactly the operations
whose wires are active happen, once each, in the order START, TICK, the Arbiter's operation (SAMPLE, or WRRATE and WRDIR),
PORTWR. A TICK that coincides with START is counted; one that coincides with the Arbiter's operation uses the old RATE and
DIR, and what that operation commits is what is left; the port data are in OUT's upper bits at the end of the cycle. A cycle
with SAMPLE and split writes together is left out, since R124 does not speak of one, and the order of WRRATE and WRDIR
between them is not fixed here (log 11). Derived. -/
def Obligations.CoincidentWiresAreSerialised : Prop :=
  (∀ w : Strobes, w.reset = true → serialize w = [.reset]) ∧
  (∀ w : Strobes, w.reset = false → (w.sample = none ∨ (w.wrrate = none ∧ w.wrdir = none)) →
    (serialize w).Pairwise (fun a b => wireRank a ≤ wireRank b) ∧ (serialize w).Nodup ∧
    .reset ∉ serialize w ∧ .nop ∉ serialize w ∧
    (.start ∈ serialize w ↔ w.start = true) ∧ (.tick ∈ serialize w ↔ w.tick = true) ∧
    (∀ ffN frN, .sample ffN frN ∈ serialize w ↔ w.sample = some (ffN, frN)) ∧
    (∀ r, .wrrate r ∈ serialize w ↔ w.wrrate = some r) ∧ (∀ d, .wrdir d ∈ serialize w ↔ w.wrdir = some d) ∧
    (∀ v, .portwr v ∈ serialize w ↔ w.portwr = some v)) ∧
  (∀ s : State, execAll (serialize { start := true, tick := true }) s = exec .tick { s with run := true }) ∧
  (∀ (w : Strobes) (s : State), w.reset = false → w.tick = true → (s.run = true ∨ w.start = true) →
    (w.sample = none ∨ (w.wrrate = none ∧ w.wrdir = none)) →
    ∃ t u : State, exec .tick { s with run := true } = .next t ∧ execAll (serialize w) s = .next u ∧
      u.run = true ∧ u.tickcnt.toNat = t.tickcnt.toNat ∧ u.phase = t.phase ∧ readReg u .outLines = readReg t .outLines ∧
      (∀ ffN frN, w.sample = some (ffN, frN) → (u.rate, u.dir) = policy ffN frN) ∧
      (w.sample = none → u.rate = w.wrrate.getD s.rate ∧ u.dir = w.wrdir.getD s.dir) ∧
      (∀ v, w.portwr = some v → readReg u .outUpper = v % 2 ^ (s.cfg.portW - 2)) ∧
      (w.portwr = none → readReg u .outUpper = readReg s .outUpper))

/-- The step rate at constant threshold T (`40_sequencer.md` R86's last sentence, `70_reset_and_hazards.md` R151, which is
informative): over any number of whole periods, the number of ticks times the step rate is the number of phase transitions
times `F_TICK`, and the rate is `F_TICK / (T + 1)`. How `F_TICK` and the rate are written (an optional rational, a function no
step calls) is the model's choice (log 13). Derived. -/
def Obligations.StepRateIsTransitionsPerTick : Prop :=
  ∀ (k : Nat) (s : State) (f : Rat), CountBounded s → s.run = true → s.cfg.fTick = some f →
    ∃ r : Rat, currentStepRate s = some r ∧ r = f / ((thresh s).toNat + 1) ∧
      ((k * ((thresh s).toNat + 1) : Nat) : Rat) * r = (transitions (k * ((thresh s).toNat + 1)) s : Rat) * f
end

