-- ==== Sys2Proof/Laws/Decode.lean ====
section
/-! SUPPORT. The fields of an assembled event word, and the decoder on assembled words. -/

namespace Sys2Proof

open Sys2Proof.Machine

@[simp] theorem opField_eventWord (n : Nat) (op : BitVec 4) (arg : BitVec n) :
    opField n (eventWord n op arg) = op := by
  apply BitVec.eq_of_getLsbD_eq
  intro k hk
  rw [opField, eventWord, BitVec.getLsbD_extractLsb', BitVec.getLsbD_append, BitVec.getLsbD_append,
    if_neg (by omega), if_neg (by omega), show n + 4 + k - n - 4 = k by omega]
  simp [hk]

@[simp] theorem zField_eventWord (n : Nat) (op : BitVec 4) (arg : BitVec n) :
    zField n (eventWord n op arg) = 0#4 := by
  apply BitVec.eq_of_getLsbD_eq
  intro k hk
  rw [zField, eventWord, BitVec.getLsbD_extractLsb', BitVec.getLsbD_append, BitVec.getLsbD_append,
    if_neg (by omega), if_pos (by omega)]
  simp

@[simp] theorem argField_eventWord (n : Nat) (op : BitVec 4) (arg : BitVec n) :
    argField n (eventWord n op arg) = arg := by
  apply BitVec.eq_of_getLsbD_eq
  intro k hk
  simp [argField, eventWord, BitVec.getLsbD_append, hk]

/-- A word whose `z` is 0 is the one assembled from its other two fields. -/
theorem eventWord_fields (n : Nat) (ev : EventWord n) (hz : zField n ev = 0#4) :
    eventWord n (opField n ev) (argField n ev) = ev := by
  apply BitVec.eq_of_getLsbD_eq
  intro k hk
  have hz' : ∀ j, j < 4 → ev.getLsbD (n + j) = false := by
    intro j hj
    have := congrArg (fun v : BitVec 4 => v.getLsbD j) hz
    simpa [zField, hj] using this
  rw [eventWord, BitVec.getLsbD_append, BitVec.getLsbD_append]
  by_cases h1 : k < n
  · simp [h1, argField]
  · by_cases h2 : k - n < 4
    · have := hz' (k - n) h2
      rw [show n + (k - n) = k by omega] at this
      simp [h1, h2, this]
    · have h3 : k - n - 4 < 4 := by omega
      simp [h1, h2, h3, opField, show n + 4 + (k - n - 4) = k by omega]

/-- The decoder on an assembled word goes by its operation code and operand field. -/
@[simp] theorem decode_eventWord (c : Config) (op : BitVec 4) (arg : BitVec c.portW) :
    decode c (eventWord c.portW op arg) = decodeOp c op arg := by
  simp [decode]

end Sys2Proof
end

