-- ==== Sys2Proof/Laws/State.lean ====
section
/-! SUPPORT. One lemma per field per named state update, each true by definition, so that no later proof unfolds a
record update. -/

namespace Sys2Proof.Machine

@[simp] theorem emitStep_cfg (s : State) : (emitStep s).cfg = s.cfg := rfl
@[simp] theorem emitStep_tickcnt (s : State) : (emitStep s).tickcnt = 0#s.cfg.wTick := rfl
@[simp] theorem emitStep_phase (s : State) : (emitStep s).phase = stepPhase s.dir s.phase := rfl
@[simp] theorem emitStep_rate (s : State) : (emitStep s).rate = s.rate := rfl
@[simp] theorem emitStep_dir (s : State) : (emitStep s).dir = s.dir := rfl
@[simp] theorem emitStep_run (s : State) : (emitStep s).run = s.run := rfl
@[simp] theorem emitStep_out (s : State) : (emitStep s).out = writePhase s.cfg.portW s.out (stepPhase s.dir s.phase) := rfl
@[simp] theorem emitStep_events (s : State) : (emitStep s).events = s.events := rfl
@[simp] theorem emitStep_draws (s : State) : (emitStep s).draws = s.draws := rfl

@[simp] theorem countTick_cfg (s : State) : (countTick s).cfg = s.cfg := rfl
@[simp] theorem countTick_tickcnt (s : State) : (countTick s).tickcnt = counted s := rfl
@[simp] theorem countTick_phase (s : State) : (countTick s).phase = s.phase := rfl
@[simp] theorem countTick_rate (s : State) : (countTick s).rate = s.rate := rfl
@[simp] theorem countTick_dir (s : State) : (countTick s).dir = s.dir := rfl
@[simp] theorem countTick_run (s : State) : (countTick s).run = s.run := rfl
@[simp] theorem countTick_out (s : State) : (countTick s).out = s.out := rfl
@[simp] theorem countTick_events (s : State) : (countTick s).events = s.events := rfl
@[simp] theorem countTick_draws (s : State) : (countTick s).draws = s.draws := rfl

@[simp] theorem commitPair_cfg (r : Rate) (d : Dir) (s : State) : (commitPair r d s).cfg = s.cfg := rfl
@[simp] theorem commitPair_tickcnt (r : Rate) (d : Dir) (s : State) : (commitPair r d s).tickcnt = s.tickcnt := rfl
@[simp] theorem commitPair_phase (r : Rate) (d : Dir) (s : State) : (commitPair r d s).phase = s.phase := rfl
@[simp] theorem commitPair_rate (r : Rate) (d : Dir) (s : State) : (commitPair r d s).rate = r := rfl
@[simp] theorem commitPair_dir (r : Rate) (d : Dir) (s : State) : (commitPair r d s).dir = d := rfl
@[simp] theorem commitPair_run (r : Rate) (d : Dir) (s : State) : (commitPair r d s).run = s.run := rfl
@[simp] theorem commitPair_out (r : Rate) (d : Dir) (s : State) : (commitPair r d s).out = s.out := rfl
@[simp] theorem commitPair_events (r : Rate) (d : Dir) (s : State) : (commitPair r d s).events = s.events := rfl
@[simp] theorem commitPair_draws (r : Rate) (d : Dir) (s : State) : (commitPair r d s).draws = s.draws := rfl

@[simp] theorem commitRate_cfg (r : Rate) (s : State) : (commitRate r s).cfg = s.cfg := rfl
@[simp] theorem commitRate_tickcnt (r : Rate) (s : State) : (commitRate r s).tickcnt = s.tickcnt := rfl
@[simp] theorem commitRate_phase (r : Rate) (s : State) : (commitRate r s).phase = s.phase := rfl
@[simp] theorem commitRate_rate (r : Rate) (s : State) : (commitRate r s).rate = r := rfl
@[simp] theorem commitRate_dir (r : Rate) (s : State) : (commitRate r s).dir = s.dir := rfl
@[simp] theorem commitRate_run (r : Rate) (s : State) : (commitRate r s).run = s.run := rfl
@[simp] theorem commitRate_out (r : Rate) (s : State) : (commitRate r s).out = s.out := rfl
@[simp] theorem commitRate_events (r : Rate) (s : State) : (commitRate r s).events = s.events := rfl
@[simp] theorem commitRate_draws (r : Rate) (s : State) : (commitRate r s).draws = s.draws := rfl

@[simp] theorem commitDir_cfg (d : Dir) (s : State) : (commitDir d s).cfg = s.cfg := rfl
@[simp] theorem commitDir_tickcnt (d : Dir) (s : State) : (commitDir d s).tickcnt = s.tickcnt := rfl
@[simp] theorem commitDir_phase (d : Dir) (s : State) : (commitDir d s).phase = s.phase := rfl
@[simp] theorem commitDir_rate (d : Dir) (s : State) : (commitDir d s).rate = s.rate := rfl
@[simp] theorem commitDir_dir (d : Dir) (s : State) : (commitDir d s).dir = d := rfl
@[simp] theorem commitDir_run (d : Dir) (s : State) : (commitDir d s).run = s.run := rfl
@[simp] theorem commitDir_out (d : Dir) (s : State) : (commitDir d s).out = s.out := rfl
@[simp] theorem commitDir_events (d : Dir) (s : State) : (commitDir d s).events = s.events := rfl
@[simp] theorem commitDir_draws (d : Dir) (s : State) : (commitDir d s).draws = s.draws := rfl

@[simp] theorem enable_cfg (s : State) : (enable s).cfg = s.cfg := rfl
@[simp] theorem enable_tickcnt (s : State) : (enable s).tickcnt = s.tickcnt := rfl
@[simp] theorem enable_phase (s : State) : (enable s).phase = s.phase := rfl
@[simp] theorem enable_rate (s : State) : (enable s).rate = s.rate := rfl
@[simp] theorem enable_dir (s : State) : (enable s).dir = s.dir := rfl
@[simp] theorem enable_run (s : State) : (enable s).run = true := rfl
@[simp] theorem enable_out (s : State) : (enable s).out = s.out := rfl
@[simp] theorem enable_events (s : State) : (enable s).events = s.events := rfl
@[simp] theorem enable_draws (s : State) : (enable s).draws = s.draws := rfl

@[simp] theorem writePort_cfg (v : Nat) (s : State) : (writePort v s).cfg = s.cfg := rfl
@[simp] theorem writePort_tickcnt (v : Nat) (s : State) : (writePort v s).tickcnt = s.tickcnt := rfl
@[simp] theorem writePort_phase (v : Nat) (s : State) : (writePort v s).phase = s.phase := rfl
@[simp] theorem writePort_rate (v : Nat) (s : State) : (writePort v s).rate = s.rate := rfl
@[simp] theorem writePort_dir (v : Nat) (s : State) : (writePort v s).dir = s.dir := rfl
@[simp] theorem writePort_run (v : Nat) (s : State) : (writePort v s).run = s.run := rfl
@[simp] theorem writePort_out (v : Nat) (s : State) : (writePort v s).out = writeUpper s.cfg.portW s.out v := rfl
@[simp] theorem writePort_events (v : Nat) (s : State) : (writePort v s).events = s.events := rfl
@[simp] theorem writePort_draws (v : Nat) (s : State) : (writePort v s).draws = s.draws := rfl

@[simp] theorem resetRegisters_cfg (s : State) : (resetRegisters s).cfg = s.cfg := rfl
@[simp] theorem resetRegisters_tickcnt (s : State) : (resetRegisters s).tickcnt = 0#s.cfg.wTick := rfl
@[simp] theorem resetRegisters_phase (s : State) : (resetRegisters s).phase = 0#2 := rfl
@[simp] theorem resetRegisters_rate (s : State) : (resetRegisters s).rate = .normal := rfl
@[simp] theorem resetRegisters_dir (s : State) : (resetRegisters s).dir = .forward := rfl
@[simp] theorem resetRegisters_run (s : State) : (resetRegisters s).run = false := rfl
@[simp] theorem resetRegisters_out (s : State) : (resetRegisters s).out = unspecOut s := rfl
@[simp] theorem resetRegisters_events (s : State) : (resetRegisters s).events = s.events := rfl
@[simp] theorem resetRegisters_draws (s : State) : (resetRegisters s).draws = s.draws + 1 := rfl

@[simp] theorem pushEvent_cfg (w : Nat) (s : State) : (pushEvent w s).cfg = s.cfg := rfl
@[simp] theorem pushEvent_tickcnt (w : Nat) (s : State) : (pushEvent w s).tickcnt = s.tickcnt := rfl
@[simp] theorem pushEvent_phase (w : Nat) (s : State) : (pushEvent w s).phase = s.phase := rfl
@[simp] theorem pushEvent_rate (w : Nat) (s : State) : (pushEvent w s).rate = s.rate := rfl
@[simp] theorem pushEvent_dir (w : Nat) (s : State) : (pushEvent w s).dir = s.dir := rfl
@[simp] theorem pushEvent_run (w : Nat) (s : State) : (pushEvent w s).run = s.run := rfl
@[simp] theorem pushEvent_out (w : Nat) (s : State) : (pushEvent w s).out = s.out := rfl
@[simp] theorem pushEvent_events (w : Nat) (s : State) : (pushEvent w s).events = BitVec.ofNat (8 + s.cfg.portW) w :: s.events := rfl
@[simp] theorem pushEvent_draws (w : Nat) (s : State) : (pushEvent w s).draws = s.draws := rfl

@[simp] theorem resetWith_cfg (c : Config) (o : BitVec c.portW) : (State.resetWith c o).cfg = c := rfl
@[simp] theorem resetWith_tickcnt (c : Config) (o : BitVec c.portW) : (State.resetWith c o).tickcnt = 0#c.wTick := rfl
@[simp] theorem resetWith_phase (c : Config) (o : BitVec c.portW) : (State.resetWith c o).phase = 0#2 := rfl
@[simp] theorem resetWith_rate (c : Config) (o : BitVec c.portW) : (State.resetWith c o).rate = .normal := rfl
@[simp] theorem resetWith_dir (c : Config) (o : BitVec c.portW) : (State.resetWith c o).dir = .forward := rfl
@[simp] theorem resetWith_run (c : Config) (o : BitVec c.portW) : (State.resetWith c o).run = false := rfl
@[simp] theorem resetWith_out (c : Config) (o : BitVec c.portW) : (State.resetWith c o).out = o := rfl
@[simp] theorem resetWith_events (c : Config) (o : BitVec c.portW) : (State.resetWith c o).events = [] := rfl
@[simp] theorem resetWith_draws (c : Config) (o : BitVec c.portW) : (State.resetWith c o).draws = 0 := rfl

end Sys2Proof.Machine
end

