-- ==== Sys2Proof/Laws/Ops.lean ====
section
/-! SUPPORT. One lemma per shared operation: what it does, once, for every later proof to cite. -/

namespace Sys2Proof.Machine

/-! The gate of RUN. -/

theorem whenRunning_of_run {s : State} (t : State) (h : s.run = true) : whenRunning s t = .next t := by
  simp [whenRunning, h]

theorem whenRunning_of_held {s : State} (t : State) (h : s.run = false) : whenRunning s t = .next s := by
  simp [whenRunning, h]

/-- Whatever RUN is, the gate answers a next state. -/
theorem whenRunning_eq (s t : State) : whenRunning s t = .next (if s.run then t else s) := by
  unfold whenRunning; split <;> rfl

/-! The bit-field writes of the port (`20_memory.md` R45). -/

theorem getLsbD_writeField (n k : Nat) (mask old new : BitVec n) :
    (writeField n mask old new).getLsbD k = if mask.getLsbD k then new.getLsbD k else old.getLsbD k := by
  by_cases hk : k < n
  · rw [writeField, BitVec.getLsbD_or, BitVec.getLsbD_and, BitVec.getLsbD_and, BitVec.getLsbD_not]
    cases hm : mask.getLsbD k <;> simp [-BitVec.getLsbD_eq_getElem, hk]
  · simp [BitVec.getLsbD_of_ge _ k (Nat.le_of_not_lt hk)]

theorem getLsbD_phaseMask (n k : Nat) : (phaseMask n).getLsbD k = (decide (k < n) && decide (k < 2)) := by
  have h3 : Nat.testBit 3 k = decide (k < 2) := by
    rw [show (3 : Nat) = 2 ^ 2 - 1 from rfl, Nat.testBit_two_pow_sub_one]
  rw [phaseMask, BitVec.getLsbD_ofNat, h3]

theorem getLsbD_writePhase (n k : Nat) (out : BitVec n) (p : Phase) (hk : k < n) :
    (writePhase n out p).getLsbD k = if k < 2 then p.getLsbD k else out.getLsbD k := by
  rw [writePhase, getLsbD_writeField, getLsbD_phaseMask]
  by_cases h2 : k < 2 <;> simp [-BitVec.getLsbD_eq_getElem, hk, h2]

theorem getLsbD_portArg (n v k : Nat) (hk : k < n) :
    (portArg n v).getLsbD k = (decide (2 ≤ k) && v.testBit (k - 2)) := by
  rw [portArg, BitVec.getLsbD_ofNat, show 4 * v = 2 ^ 2 * v from rfl, Nat.testBit_two_pow_mul]
  simp [hk]

theorem getLsbD_writeUpper (n k : Nat) (out : BitVec n) (v : Nat) (hk : k < n) :
    (writeUpper n out v).getLsbD k = if k < 2 then out.getLsbD k else v.testBit (k - 2) := by
  rw [writeUpper, getLsbD_writeField]
  rw [BitVec.getLsbD_not, getLsbD_phaseMask, getLsbD_portArg n v k hk]
  by_cases h2 : k < 2
  · simp [-BitVec.getLsbD_eq_getElem, hk, h2]
  · simp [-BitVec.getLsbD_eq_getElem, hk, h2, Nat.le_of_not_lt h2]

/-- The phase lines after the phase write show the phase written, on any port that has them. -/
theorem phaseLines_writePhase {n : Nat} (hn : 2 ≤ n) (out : BitVec n) (p : Phase) :
    phaseLines n (writePhase n out p) = p := by
  apply BitVec.eq_of_getLsbD_eq
  intro k hk
  have hkn : k < n := by omega
  simp [phaseLines, getLsbD_writePhase n k out p hkn, hk]

/-- The environment's port write leaves the phase lines alone. -/
theorem phaseLines_writeUpper (n : Nat) (out : BitVec n) (v : Nat) :
    phaseLines n (writeUpper n out v) = phaseLines n out := by
  apply BitVec.eq_of_getLsbD_eq
  intro k hk
  by_cases hkn : k < n
  · simp [phaseLines, getLsbD_writeUpper n k out v hkn, hk]
  · simp [phaseLines, BitVec.getLsbD_of_ge _ k (Nat.le_of_not_lt hkn)]

/-- The two writers of OUT touch disjoint bits, so their writes commute. -/
theorem writeUpper_writePhase (n : Nat) (out : BitVec n) (p : Phase) (v : Nat) :
    writeUpper n (writePhase n out p) v = writePhase n (writeUpper n out v) p := by
  apply BitVec.eq_of_getLsbD_eq
  intro k hk
  rw [getLsbD_writeUpper n k _ v hk, getLsbD_writePhase n k out p hk, getLsbD_writePhase n k _ p hk,
    getLsbD_writeUpper n k out v hk]
  by_cases h2 : k < 2 <;> simp [-BitVec.getLsbD_eq_getElem, h2]

/-! The same writes seen as numbers: the phase lines are `OUT % 4`, the other bits `OUT / 4`. -/

theorem phaseLines_toNat (n : Nat) (out : BitVec n) : (phaseLines n out).toNat = out.toNat % 4 := by
  simp [phaseLines]

theorem writePhase_lines {n : Nat} (hn : 2 ≤ n) (out : BitVec n) (p : Phase) :
    (writePhase n out p).toNat % 4 = p.toNat := by
  rw [← phaseLines_toNat, phaseLines_writePhase hn]

theorem writeUpper_lines (n : Nat) (out : BitVec n) (v : Nat) : (writeUpper n out v).toNat % 4 = out.toNat % 4 := by
  rw [← phaseLines_toNat, phaseLines_writeUpper, phaseLines_toNat]

theorem writePhase_upper (n : Nat) (out : BitVec n) (p : Phase) : (writePhase n out p).toNat / 4 = out.toNat / 4 := by
  apply Nat.eq_of_testBit_eq
  intro j
  rw [show (4 : Nat) = 2 ^ 2 from rfl, Nat.testBit_div_two_pow, Nat.testBit_div_two_pow]
  by_cases h : j + 2 < n
  · exact (getLsbD_writePhase n (j + 2) out p h).trans (if_neg (by omega))
  · exact (BitVec.getLsbD_of_ge _ _ (Nat.le_of_not_lt h)).trans (BitVec.getLsbD_of_ge _ _ (Nat.le_of_not_lt h)).symm

/-- The upper bits after the environment's write: the operand, cut to the bits the port has. -/
theorem writeUpper_upper (n : Nat) (out : BitVec n) (v : Nat) : (writeUpper n out v).toNat / 4 = v % 2 ^ (n - 2) := by
  apply Nat.eq_of_testBit_eq
  intro j
  rw [show (4 : Nat) = 2 ^ 2 from rfl, Nat.testBit_div_two_pow, Nat.testBit_mod_two_pow]
  by_cases h : j + 2 < n
  · rw [decide_eq_true (by omega : j < n - 2), Bool.true_and]
    exact (getLsbD_writeUpper n (j + 2) out v h).trans (if_neg (by omega))
  · rw [decide_eq_false (by omega : ¬j < n - 2), Bool.false_and]
    exact BitVec.getLsbD_of_ge _ _ (Nat.le_of_not_lt h)

/-! The compare and the count (`40_sequencer.md` R81, R82). -/

theorem counted_toNat (s : State) : (counted s).toNat = (s.tickcnt.toNat + 1) % 2 ^ s.cfg.wTick := by
  simp [counted, BitVec.toNat_add]

theorem expire_iff (s : State) :
    expire s = true ↔ (thresh s).toNat < (s.tickcnt.toNat + 1) % 2 ^ s.cfg.wTick := by
  rw [expire, BitVec.ult, decide_eq_true_iff, counted_toNat]

/-! What `exec` and `step` can do. -/

/-- The one state each operation leads to. -/
def afterOp (i : Instr) (s : State) : State :=
  match i with
  | .nop => s
  | .reset => resetRegisters s
  | .start => enable s
  | .tick => if s.run then (if expire s then emitStep s else countTick s) else s
  | .sample ffN frN => if s.run then commitPair (policy ffN frN).1 (policy ffN frN).2 s else s
  | .wrrate r => if s.run then commitRate r s else s
  | .wrdir d => if s.run then commitDir d s else s
  | .portwr v => writePort v s

/-- Everything `exec` can do, said once. -/
theorem exec_eq (i : Instr) (s : State) : exec i s = .next (afterOp i s) := by
  cases i <;> first | rfl | exact whenRunning_eq s _

/-- The cases of `afterOp`: which state, and under which condition on the operation and on RUN. -/
theorem afterOp_cases (i : Instr) (s : State) :
    ((i = .nop ∨ (s.run = false ∧ agentOf i ≠ .environment)) ∧ afterOp i s = s) ∨
    (i = .reset ∧ afterOp i s = resetRegisters s) ∨
    (i = .start ∧ afterOp i s = enable s) ∨
    (∃ v, i = .portwr v ∧ afterOp i s = writePort v s) ∨
    (s.run = true ∧
      ((i = .tick ∧ expire s = true ∧ afterOp i s = emitStep s) ∨
       (i = .tick ∧ expire s = false ∧ afterOp i s = countTick s) ∨
       (∃ a b, i = .sample a b ∧ afterOp i s = commitPair (policy a b).1 (policy a b).2 s) ∨
       (∃ r, i = .wrrate r ∧ afterOp i s = commitRate r s) ∨
       (∃ d, i = .wrdir d ∧ afterOp i s = commitDir d s))) := by
  cases hr : s.run <;> cases hx : expire s <;> cases i <;> simp [afterOp, agentOf, hr, hx, -Bool.exists_bool]

/-- What every operation of the Arbiter leaves alone: all but RATE and DIR. -/
theorem afterOp_arbiter {i : Instr} (h : agentOf i = .arbiter) (s : State) :
    ∃ r d, afterOp i s = { s with rate := r, dir := d } := by
  obtain ⟨_, _, _, _, _, run, _, _, _⟩ := s
  cases i <;> simp [agentOf] at h <;> cases run <;> exact ⟨_, _, rfl⟩

theorem exec_next_iff {i : Instr} {s t : State} : exec i s = .next t ↔ afterOp i s = t := by
  rw [exec_eq]; exact ⟨fun h => by injection h, fun h => by rw [h]⟩

/-! The gated operations, case by case. -/

theorem exec_tick_of_held {s : State} (h : s.run = false) : exec .tick s = .next s :=
  whenRunning_of_held _ h

theorem exec_tick_of_expire {s : State} (h : s.run = true) (he : expire s = true) :
    exec .tick s = .next (emitStep s) := by
  rw [exec_eq]; simp [afterOp, h, he]

theorem exec_tick_of_idle {s : State} (h : s.run = true) (he : expire s = false) :
    exec .tick s = .next (countTick s) := by
  rw [exec_eq]; simp [afterOp, h, he]

theorem exec_sample_of_run {s : State} (h : s.run = true) (ffN frN : Bool) :
    exec (.sample ffN frN) s = .next (commitPair (policy ffN frN).1 (policy ffN frN).2 s) :=
  whenRunning_of_run _ h

theorem exec_wrrate_of_run {s : State} (h : s.run = true) (r : Rate) :
    exec (.wrrate r) s = .next (commitRate r s) := whenRunning_of_run _ h

theorem exec_wrdir_of_run {s : State} (h : s.run = true) (d : Dir) :
    exec (.wrdir d) s = .next (commitDir d s) := whenRunning_of_run _ h

/-! THRESH and the counts of an updated state, as numbers: the widths of the two states are equal by definition. -/

@[simp] theorem toNat_thresh_countTick (s : State) : (thresh (countTick s)).toNat = (thresh s).toNat := rfl

@[simp] theorem toNat_thresh_emitStep (s : State) : (thresh (emitStep s)).toNat = (thresh s).toNat := rfl

@[simp] theorem toNat_thresh_commitDir (d : Dir) (s : State) : (thresh (commitDir d s)).toNat = (thresh s).toNat := rfl

@[simp] theorem toNat_tickcnt_countTick (s : State) :
    (countTick s).tickcnt.toNat = (s.tickcnt.toNat + 1) % 2 ^ s.cfg.wTick := counted_toNat s

@[simp] theorem toNat_tickcnt_emitStep (s : State) : (emitStep s).tickcnt.toNat = 0 := by simp

/-- Everything `step` can do when it answers a next state. -/
theorem step_next_cases {s t : State} (h : step s = .next t) :
    s.cfg.wf = true ∧
      ((s.events = [] ∧ t = s) ∨
        ∃ ev rest i, s.events = ev :: rest ∧ decode s.cfg ev = .ok i ∧
          exec i { s with events := rest } = .next t) := by
  unfold step fetch at h
  by_cases hw : s.cfg.wf = true
  · refine ⟨hw, ?_⟩
    rw [if_pos hw] at h
    cases he : s.events with
    | nil => rw [he] at h; left; exact ⟨rfl, by injection h with h; exact h.symm⟩
    | cons ev rest =>
      rw [he] at h
      cases hd : decode s.cfg ev with
      | ok i => right; exact ⟨ev, rest, i, rfl, hd, by simpa [hd] using h⟩
      | error why => simp [hd] at h
  · rw [if_neg hw] at h; cases h

/-- A step on a pending valid word runs its operation on the state without the word. -/
theorem step_of_decode {s : State} {ev : EventWord s.cfg.portW} {rest : List (EventWord s.cfg.portW)} {i : Instr}
    (hw : s.cfg.wf = true) (he : s.events = ev :: rest) (hd : decode s.cfg ev = .ok i) :
    step s = exec i { s with events := rest } := by
  simp [step, fetch, hw, he, hd]

end Sys2Proof.Machine
end

