-- ==== Sys2Proof/Laws/PerInstr.lean ====
section
/-! SUPPORT. Facts about every operation as syntax, one lemma per constructor. -/

namespace Sys2Proof.Laws.Fields

open Sys2Proof

/-- The encoding of an operation carries its operation code of `30_encoding.md` R65, a zero `z`, and its operand
field (R70). -/
def Statement (i : Instr) : Prop :=
  ∀ c : Config, opField c.portW (encode c i) = opcode i ∧ zField c.portW (encode c i) = 0#4
    ∧ argField c.portW (encode c i) = operandArg c.portW i

theorem nop : Statement .nop := by intro c; simp [encode]
theorem reset : Statement .reset := by intro c; simp [encode]
theorem start : Statement .start := by intro c; simp [encode]
theorem tick : Statement .tick := by intro c; simp [encode]
theorem sample (ffN frN : Bool) : Statement (.sample ffN frN) := by intro c; simp [encode]
theorem wrrate (r : Rate) : Statement (.wrrate r) := by intro c; simp [encode]
theorem wrdir (d : Dir) : Statement (.wrdir d) := by intro c; simp [encode]
theorem portwr (v : Nat) : Statement (.portwr v) := by intro c; simp [encode]

end Sys2Proof.Laws.Fields
end

