-- ==== Sys2Proof/Laws/Run.lean ====
section
/-! SUPPORT. Runs of operations, the count of phase transitions tick by tick, and the arithmetic of the invariant, for
the proofs about whole runs. -/

namespace Sys2Proof.Machine

theorem execAll_cons (i : Instr) (is : List Instr) (s : State) :
    execAll (i :: is) s = execAll is (afterOp i s) := by
  simp [execAll, exec_eq]

theorem execAll_append (is js : List Instr) (s : State) :
    execAll (is ++ js) s = execAll js (is.foldl (fun t i => afterOp i t) s) := by
  induction is generalizing s with
  | nil => rfl
  | cons i is ih => rw [List.cons_append, execAll_cons, ih]; rfl

/-- A run of operations never stops. -/
theorem execAll_eq (is : List Instr) (s : State) :
    execAll is s = .next (is.foldl (fun t i => afterOp i t) s) := by
  have := execAll_append is [] s
  rw [List.append_nil] at this
  exact this

theorem thresh_eq_ite (s : State) : thresh s = if s.rate = .fast then s.cfg.tFast else s.cfg.tNormal := by
  unfold thresh threshold; cases s.rate <;> rfl

theorem stepPhase_ne (d : Dir) (p : Phase) : stepPhase d p ≠ p := by
  revert p; cases d <;> decide

/-- One tick of `transitions`: a stepping tick counts one, an idle tick none. -/
theorem transitions_succ (n : Nat) {s : State} (hr : s.run = true) :
    transitions (n + 1) s = if expire s then 1 + transitions n (emitStep s) else transitions n (countTick s) := by
  cases hx : expire s
  · simp [transitions, exec_tick_of_idle hr hx]
  · simp [transitions, exec_tick_of_expire hr hx, stepPhase_ne]

/-- While RUN = 0 no tick steps. -/
theorem transitions_of_held (n : Nat) {s : State} (hr : s.run = false) : transitions n s = 0 := by
  induction n with
  | zero => rfl
  | succ n ih => simp [transitions, exec_tick_of_held hr, ih]

/-- Which ticks step depends on the configuration, TICKCNT, RATE and RUN alone. -/
theorem transitions_congr (n : Nat) (s : State) (p : Phase) (d : Dir) (o : BitVec s.cfg.portW)
    (evs : List (EventWord s.cfg.portW)) (k : Nat) :
    transitions n { s with phase := p, dir := d, out := o, events := evs, draws := k } = transitions n s := by
  induction n generalizing s p d o evs k with
  | zero => rfl
  | succ n ih =>
    rcases Bool.eq_false_or_eq_true s.run with hr | hr
    · rw [transitions_succ n hr, transitions_succ n (by exact hr)]
      exact if_congr Iff.rfl (congrArg (1 + ·) (ih (emitStep s) _ _ _ _ _)) (ih (countTick s) _ _ _ _ _)
    · rw [transitions_of_held _ hr, transitions_of_held _ (by exact hr)]

/-! The arithmetic of a well-formed configuration and of the invariant. -/

theorem two_le_portW {c : Config} (h : c.wf = true) : 2 ≤ c.portW := by
  simp only [Config.wf, Bool.and_eq_true, decide_eq_true_eq] at h
  exact h.1.1.2

theorem max_threshold_lt {c : Config} (h : c.wf = true) : max c.tNormal.toNat c.tFast.toNat + 1 < 2 ^ c.wTick := by
  simp only [Config.wf, Bool.and_eq_true, decide_eq_true_eq] at h
  have : 2 ^ 1 ≤ 2 ^ c.wTick := Nat.pow_le_pow_right (by norm_num) h.1.1.1
  omega

theorem thresh_le_max (s : State) : (thresh s).toNat ≤ max s.cfg.tNormal.toNat s.cfg.tFast.toNat := by
  rw [thresh_eq_ite]; split <;> omega

/-- While the count is bounded the increment does not wrap. -/
theorem counted_of_bounded {s : State} (hI : CountBounded s) : (counted s).toNat = s.tickcnt.toNat + 1 := by
  have := hI.bounded
  have := max_threshold_lt hI.cfgWf
  rw [counted_toNat, Nat.mod_eq_of_lt (by omega)]

/-- While the count is bounded a tick steps exactly when the count has reached the threshold. -/
theorem expire_of_bounded {s : State} (hI : CountBounded s) : expire s = true ↔ (thresh s).toNat ≤ s.tickcnt.toNat := by
  rw [expire_iff, ← counted_toNat, counted_of_bounded hI, Nat.lt_succ_iff]

/-- A stepping tick keeps the count bounded. -/
theorem emitStep_bounded {s : State} (hI : CountBounded s) : CountBounded (emitStep s) :=
  ⟨hI.cfgWf, by simp⟩

/-- An idle tick keeps the count bounded. -/
theorem countTick_bounded {s : State} (hI : CountBounded s) (he : expire s = false) : CountBounded (countTick s) := by
  have hc : (countTick s).tickcnt.toNat = s.tickcnt.toNat + 1 := counted_of_bounded hI
  have hx : ¬(expire s = true) := by simp [he]
  rw [expire_of_bounded hI] at hx
  have hm := thresh_le_max s
  exact ⟨hI.cfgWf, by rw [hc, countTick_cfg]; omega⟩

/-! Runs of the host's machine. -/

theorem core_run_succ_of_next (M : Host.Core) (n : Nat) {s t : M.State} (h : M.step s = .next t) :
    M.run (n + 1) s = M.run n t := by
  rw [Host.Core.run, h]

theorem core_run_succ_of_refused (M : Host.Core) (n : Nat) {s : M.State} {r : M.Refusal} (h : M.step s = .refused r) :
    M.run (n + 1) s = .refused r := by
  rw [Host.Core.run, h]

/-- What every step keeps, every run keeps. -/
theorem run_induction {P : State → Prop} (hstep : ∀ s t, P s → step s = .next t → P t) :
    ∀ (n : Nat) (s t : State), P s → Sys2Proof.core.run n s = .next t → P t := by
  intro n
  induction n with
  | zero => intro s t hs h; injection h with h; exact h ▸ hs
  | succ n ih =>
    intro s t hs h
    cases hx : step s with
    | next u => exact ih u t (hstep s u hs hx) ((core_run_succ_of_next Sys2Proof.core n hx).symm.trans h)
    | fault f => exact nomatch f
    | refused r => exact nomatch (core_run_succ_of_refused Sys2Proof.core n hx).symm.trans h

end Sys2Proof.Machine
end

