-- ==== Sys2Proof/Tests/Slice0.lean ====
section
/-! SUPPORT. The model's own tests: what is ill formed is refused, words written out from the spec's encoding decode,
single operations against the spec's vectors (`spec/95_test_vectors.md`), and a witness for the hypotheses of each
statement. Expected results come from the spec's tables, never from the model. -/

namespace Sys2Proof.Tests

open Sys2Proof Sys2Proof.Machine

/-- A state written as the vectors write it, in the order (RUN, TICKCNT, PHASE, RATE, DIR, OUT). -/
def st (c : Config) (run : Bool) (tick phase : Nat) (rate : Rate) (dir : Dir) (out : Nat) : State :=
  { cfg := c, tickcnt := BitVec.ofNat _ tick, phase := BitVec.ofNat 2 phase, rate := rate, dir := dir, run := run,
    out := BitVec.ofNat _ out, events := [], draws := 0 }

/-- The registers but OUT of a next state. -/
def inner : Host.Outcome State Fault Refusal → Option (Bool × Nat × Nat × Rate × Dir)
  | .next t => some (t.run, t.tickcnt.toNat, t.phase.toNat, t.rate, t.dir)
  | .fault _ => none
  | .refused _ => none

/-- OUT of a next state. -/
def port : Host.Outcome State Fault Refusal → Option Nat
  | .next t => some t.out.toNat
  | .fault _ => none
  | .refused _ => none

/-- What a decoder verdict or a step refuses with. -/
def refusal : Host.Outcome State Fault Refusal → Option Refusal
  | .refused r => some r
  | .next _ => none
  | .fault _ => none

/-! ## Well-formedness: one ill-formed term per check -/

theorem test_wf_default : Config.default.wf = true := by decide
theorem test_wf_no_tick_width : ({ Config.default with wTick := 0, tNormal := 0#0, tFast := 0#0 } : Config).wf = false := by
  decide
theorem test_wf_port_of_one_bit : ({ Config.default with portW := 1 } : Config).wf = false := by decide
/-- 95 section 2.2: "W_TICK = 8 with either threshold = 255" is refused. -/
theorem test_wf_normal_threshold : ({ Config.default with tNormal := 255#8 } : Config).wf = false := by decide
theorem test_wf_fast_threshold : ({ Config.default with tFast := 255#8 } : Config).wf = false := by decide
theorem test_wf_portwr_operand : (Instr.portwr 64).wf Config.default = false := by decide
theorem test_wf_wrrate_not_admitted : (Instr.wrrate .fast).wf Config.default = false := by decide
theorem test_wf_wrdir_not_admitted : (Instr.wrdir .reverse).wf Config.default = false := by decide
theorem test_step_refuses_configuration :
    refusal (step (st { Config.default with tNormal := 255#8 } true 0 0 .normal .forward 0)) = some .badConfiguration := by
  decide

/-! ## Decoding: words written out from `30_encoding.md` R64 and R65 -/

theorem test_decode_nop : decode Config.default 0b0000000000000000#16 = .ok .nop := by rfl
theorem test_decode_reset : decode Config.default 0b0001000000000000#16 = .ok .reset := by rfl
theorem test_decode_start : decode Config.default 0b0010000000000000#16 = .ok .start := by rfl
theorem test_decode_tick : decode Config.default 0b0011000000000000#16 = .ok .tick := by rfl
theorem test_decode_sample_ff_pressed : decode Config.default 0b0100000000000010#16 = .ok (.sample false true) := by rfl
theorem test_decode_sample_fr_pressed : decode Config.default 0b0100000000000001#16 = .ok (.sample true false) := by rfl
theorem test_decode_wrrate : decode Config.covering 0b0101000000000001#16 = .ok (.wrrate .fast) := by rfl
theorem test_decode_wrdir : decode Config.covering 0b0110000000000001#16 = .ok (.wrdir .reverse) := by rfl
theorem test_decode_portwr : decode Config.default 0b0111000010100100#16 = .ok (.portwr 0x29) := by rfl
/-- 95 section 2.7: 0x5000 is invalid unless `ARB_SPLIT`. -/
theorem test_decode_wrrate_not_admitted : decode Config.default 0x5000#16 = .error .notAdmitted := by rfl
/-- 95 section 2.7: the invalid words of the list. -/
theorem test_decode_invalid_words :
    [0x3001, 0x4004, 0x5002, 0x7001, 0x70A5, 0x3100, 0x8000, 0xF000, 0x0001].map (decodeTableWord 16)
      = [none, none, none, none, none, none, none, none, none] := by decide
/-- 95 W6: `WRDIR 1` with `ARB_SPLIT` false: the trace is refused. -/
theorem test_step_refuses_wrdir_not_admitted :
    refusal (step (State.withFetchWord (st Config.default true 0 0 .normal .forward 0) 16 0x6001))
      = some (.invalidEvent .notAdmitted) := by decide

/-! ## Single operations: the vectors of `95_test_vectors.md` -/

/-- T20: OUT[1:0] differs from PHASE before the first step; the write is the new PHASE, the upper bits stay. -/
theorem test_tick_T20 :
    inner (exec .tick (st Config.default true 2 0 .normal .forward 0b11000001)) = some (true, 0, 3, .normal, .forward) ∧
    port (exec .tick (st Config.default true 2 0 .normal .forward 0b11000001)) = some 0b11000011 := by decide
/-- T10 and T16: the compare is strict, and the largest legal threshold works. -/
theorem test_tick_T10_T16 :
    inner (exec .tick (st Config.default true 1 2 .normal .forward 0b10)) = some (true, 2, 2, .normal, .forward) ∧
    inner (exec .tick (st { Config.default with tNormal := 254#8 } true 254 0 .normal .forward 0))
      = some (true, 0, 3, .normal, .forward) := by decide
/-- A3: `SAMPLE 1, 0` gives (FAST, REVERSE); the worked example of R100. -/
theorem test_sample_A3 :
    inner (exec (.sample true false) (st Config.default true 1 2 .normal .forward 0))
      = some (true, 1, 2, .fast, .reverse) := by decide
/-- A7: with RUN = 0 a SAMPLE is ignored. -/
theorem test_sample_A7 :
    inner (exec (.sample true false) (st Config.default false 0 0 .normal .forward 0))
      = some (false, 0, 0, .normal, .forward) := by decide
/-- W2. -/
theorem test_wrrate_W2 :
    inner (exec (.wrrate .normal) (st Config.covering true 0 0 .fast .reverse 0)) = some (true, 0, 0, .normal, .reverse) := by
  decide
/-- W3. -/
theorem test_wrdir_W3 :
    inner (exec (.wrdir .reverse) (st Config.covering true 0 0 .fast .forward 0)) = some (true, 0, 0, .fast, .reverse) := by
  decide
/-- E1. -/
theorem test_nop_E1 :
    inner (exec .nop (st Config.default true 2 3 .fast .reverse 0b10100111)) = some (true, 2, 3, .fast, .reverse) ∧
    port (exec .nop (st Config.default true 2 3 .fast .reverse 0b10100111)) = some 0b10100111 := by decide
/-- E2: every register but OUT, whose value is not fixed. -/
theorem test_reset_E2 :
    inner (exec .reset (st Config.default true 2 3 .fast .reverse 0b10100111)) = some (false, 0, 0, .normal, .forward) := by
  decide
/-- E3. -/
theorem test_start_E3 :
    inner (exec .start (st Config.default false 0 0 .normal .forward 0)) = some (true, 0, 0, .normal, .forward) := by decide
/-- E5: the phase lines 0b11 stay. -/
theorem test_portwr_E5 :
    port (exec (.portwr 0b010101) (st Config.default true 2 3 .fast .reverse 0b10100111)) = some 0b01010111 := by decide
/-- E7 with RUN = 0 as in E6: PORTWR acts whatever RUN is. -/
theorem test_portwr_held :
    port (exec (.portwr 0x3F) (st Config.default false 0 0 .normal .forward 0b01)) = some 0b11111101 := by decide

/-- One step from reset runs the fetched word. -/
theorem test_fetch_word_runs : step (State.reset.withFetchWord 16 0x2000) = exec .start State.reset := by rfl
theorem test_no_event_pending : step State.reset = .next State.reset := by rfl

/-- C1 of `90_conflicts.md`: the divisor 125 gives 307.2 Hz and 126 does not. -/
theorem test_tick_frequency_C1 : tickFrequency 9830400 256 124 = 307.2 ∧ tickFrequency 9830400 256 125 ≠ 307.2 := by
  constructor <;> norm_num [tickFrequency]

/-! ## Witnesses: a concrete state and operands for the hypotheses of each statement -/

/-- A running state whose next tick steps; its phase lines differ from PHASE. -/
def stepping : State := st Config.default true 2 0 .normal .forward 0b11000001
/-- The same in REVERSE. -/
def steppingReverse : State := st Config.default true 2 3 .fast .reverse 0b11000001
/-- A running state whose next tick is idle: its incremented count equals the threshold. -/
def idle : State := st Config.default true 1 2 .normal .forward 0b10
/-- A running state whose count is one above its threshold, as after a change of RATE. -/
def justAbove : State := st Config.default true 1 0 .fast .forward 0b01
/-- A running state under a configuration that gives `F_TICK`. -/
def timed : State := st { Config.default with fTick := some 300 } true 0 0 .normal .forward 0
/-- A cycle with every wire active that a SAMPLE leaves room for. -/
def pressed : Strobes := { start := true, tick := true, sample := some (true, false), portwr := some 0x29 }
/-- A cycle with a tick and both split writes. -/
def split : Strobes := { tick := true, wrrate := some .fast, wrdir := some .reverse }
/-- A state held before START. -/
def heldState : State := st Config.default false 0 0 .normal .forward 0b01
/-- A running state under a configuration that breaks R6. -/
def excluded : State := st { Config.default with tNormal := 255#8 } true 7 0 .normal .forward 0
/-- A running state with two events pending. -/
def pending : State := { idle with events := [0x4001#16, 0x3000#16] }

theorem stepping_bounded : CountBounded stepping := ⟨by decide, by decide⟩
theorem steppingReverse_bounded : CountBounded steppingReverse := ⟨by decide, by decide⟩
theorem justAbove_bounded : CountBounded justAbove := ⟨by decide, by decide⟩
theorem idle_bounded : CountBounded idle := ⟨by decide, by decide⟩
theorem pending_inv : Inv pending := ⟨⟨by decide, by decide⟩, by decide, by decide⟩

theorem witness_ResetLoadsResetValues : exec .reset stepping = .next (resetRegisters stepping) := rfl
theorem witness_StartSetsRunAlone : stepping.run = true := rfl
theorem witness_PortwrWritesUpperBitsAlone : (0xA4#8).getLsbD 0 = false ∧ (0xA4#8).getLsbD 1 = false := by decide
theorem witness_PortwrAndNopCommute : Instr.tick ≠ .reset ∧ ∀ v', Instr.tick ≠ .portwr v' := ⟨by decide, fun _ => nofun⟩
theorem witness_ArbiterCommutesWithIdleTick : agentOf (.wrdir .reverse) = .arbiter ∧
    exec (.wrdir .reverse) idle = .next (commitDir .reverse idle) ∧ (commitDir .reverse idle).rate = idle.rate ∧
    expire idle = false := ⟨rfl, rfl, rfl, by decide⟩
theorem witness_TickCountsAndSteps : heldState.run = false ∧ stepping.run = true ∧
    (if stepping.rate = .fast then stepping.cfg.tFast else stepping.cfg.tNormal).toNat
      < (stepping.tickcnt.toNat + 1) % 2 ^ stepping.cfg.wTick ∧
    idle.run = true ∧ (idle.tickcnt.toNat + 1) % 2 ^ idle.cfg.wTick
      ≤ (if idle.rate = .fast then idle.cfg.tFast else idle.cfg.tNormal).toNat := by decide
theorem witness_PhaseStepsByOneModuloFour : (stepping.run = true ∧ expire stepping = true ∧ stepping.dir = .forward) ∧
    (steppingReverse.run = true ∧ expire steppingReverse = true ∧ steppingReverse.dir = .reverse) ∧
    Instr.tick ≠ .reset ∧ (emitStep stepping).phase ≠ stepping.phase ∧ (2 : Nat) ≤ 2 := by decide
theorem witness_LinesWrittenExactlyOnSteppingTicks : stepping.run = true ∧ expire stepping = true ∧
    2 ≤ stepping.cfg.portW ∧ idle.run = true ∧ expire idle = false ∧ Instr.tick ≠ .reset ∧
    readReg (emitStep stepping) .outLines ≠ readReg stepping .outLines := by decide
/-- The next state of the clauses about a TICK that changes PHASE or the phase lines. -/
theorem witness_tick_steps : exec .tick stepping = .next (emitStep stepping) := rfl
theorem witness_CounterStaysWithinThreshold : CountBounded stepping ∧ stepping.run = true := ⟨stepping_bounded, rfl⟩
theorem witness_OneTransitionPerPeriod : CountBounded steppingReverse ∧ steppingReverse.run = true ∧
    (thresh steppingReverse).toNat = 0 := ⟨steppingReverse_bounded, rfl, by decide⟩
theorem witness_StepRateIsTransitionsPerTick : CountBounded timed ∧ timed.run = true ∧ timed.cfg.fTick = some 300 :=
  ⟨⟨by decide, by decide⟩, rfl, rfl⟩
/-- Both clauses where they meet, c0 = T and c0 = T + 1, and a count below the threshold. -/
theorem witness_ExactTransitionCount :
    (CountBounded stepping ∧ stepping.run = true ∧ stepping.tickcnt.toNat = (thresh stepping).toNat) ∧
    (CountBounded justAbove ∧ justAbove.run = true ∧ justAbove.tickcnt.toNat = (thresh justAbove).toNat + 1 ∧ 1 ≤ 1) ∧
    (CountBounded idle ∧ idle.run = true ∧ idle.tickcnt.toNat ≤ (thresh idle).toNat) :=
  ⟨⟨stepping_bounded, rfl, by decide⟩, ⟨justAbove_bounded, rfl, by decide, by decide⟩, ⟨idle_bounded, rfl, by decide⟩⟩
/-- One tick from a count below the threshold (q = 0), at it (q = 1) and above it. -/
theorem witness_TicksInClosedForm :
    (CountBounded idle ∧ idle.run = true ∧ idle.tickcnt.toNat ≤ (thresh idle).toNat ∧
      0 = (1 + idle.tickcnt.toNat) / ((thresh idle).toNat + 1) ∧ 2 = (1 + idle.tickcnt.toNat) % ((thresh idle).toNat + 1)) ∧
    (CountBounded stepping ∧ stepping.run = true ∧ stepping.tickcnt.toNat ≤ (thresh stepping).toNat ∧
      1 = (1 + stepping.tickcnt.toNat) / ((thresh stepping).toNat + 1) ∧
      0 = (1 + stepping.tickcnt.toNat) % ((thresh stepping).toNat + 1)) ∧
    (CountBounded justAbove ∧ justAbove.run = true ∧ (thresh justAbove).toNat < justAbove.tickcnt.toNat ∧
      1 = 1 + (1 - 1) / ((thresh justAbove).toNat + 1) ∧ 0 = (1 - 1) % ((thresh justAbove).toNat + 1)) :=
  ⟨⟨idle_bounded, rfl, by decide⟩, ⟨stepping_bounded, rfl, by decide⟩, ⟨justAbove_bounded, rfl, by decide⟩⟩
/-- Both clauses of the change of threshold: WRRATE FAST lowers it below the count, SAMPLE 1, 1 leaves it above; and WRDIR
leaves RATE as it was. -/
theorem witness_ThresholdChangeActsAtNextTick : CountBounded idle ∧ idle.run = true ∧
    (agentOf (.wrrate .fast) = .arbiter ∧ exec (.wrrate .fast) idle = .next (commitRate .fast idle) ∧
      (thresh (commitRate .fast idle)).toNat ≤ (commitRate .fast idle).tickcnt.toNat) ∧
    (agentOf (.sample true true) = .arbiter ∧ exec (.sample true true) idle = .next (commitPair .normal .forward idle) ∧
      (commitPair .normal .forward idle).tickcnt.toNat < (thresh (commitPair .normal .forward idle)).toNat) ∧
    (agentOf (.wrdir .reverse) = .arbiter ∧ exec (.wrdir .reverse) idle = .next (commitDir .reverse idle) ∧
      (commitDir .reverse idle).rate = idle.rate) :=
  ⟨idle_bounded, rfl, ⟨rfl, rfl, by decide⟩, ⟨rfl, rfl, by decide⟩, ⟨rfl, rfl, rfl⟩⟩
theorem witness_ExcludedThresholdNeverSteps : excluded.run = true ∧
    (thresh excluded).toNat = 2 ^ excluded.cfg.wTick - 1 := by decide
/-- A count at the threshold and one above it; the first and the last period of a cycle. -/
theorem witness_FourStepCycleAndReversal : (CountBounded stepping ∧ stepping.run = true ∧ Dir.reverse ≠ stepping.dir) ∧
    (CountBounded justAbove ∧ justAbove.run = true ∧ Dir.reverse ≠ justAbove.dir) ∧ 0 < 1 ∧ 3 < 4 :=
  ⟨⟨stepping_bounded, rfl, by decide⟩, ⟨justAbove_bounded, rfl, by decide⟩, by decide, by decide⟩
/-- The first transition from a count at the threshold and from one above it, and the last tick before the second. -/
theorem witness_LinesVisitFourStatesInOrder :
    (CountBounded stepping ∧ stepping.run = true ∧ stepping.phase = 0#2 ∧ 1 ≤ 1 ∧ 2 ≤ (thresh stepping).toNat ∧
      stepping.tickcnt.toNat ≤ (thresh stepping).toNat ∧
      3 = 1 * ((thresh stepping).toNat + 1) - stepping.tickcnt.toNat + 2) ∧
    (CountBounded justAbove ∧ justAbove.run = true ∧ justAbove.phase = 0#2 ∧ 0 ≤ (thresh justAbove).toNat ∧
      (thresh justAbove).toNat < justAbove.tickcnt.toNat ∧ 1 = 1 + (1 - 1) * ((thresh justAbove).toNat + 1) + 0) :=
  ⟨⟨stepping_bounded, rfl, by decide⟩, ⟨justAbove_bounded, rfl, by decide⟩⟩
theorem witness_FirstTransitionAfterBoot : stepping.cfg.wf = true ∧ 2 ≤ stepping.cfg.tNormal.toNat := by decide
theorem witness_SampleCommitsPolicyPair : (∀ k, 2 ≤ k → (0b11#8).getLsbD k = false) ∧ heldState.run = false ∧
    stepping.run = true ∧ exec (.sample true true) stepping = .next (commitPair .normal .forward stepping) := by
  refine ⟨fun k hk => ?_, rfl, rfl, rfl⟩
  obtain ⟨j, rfl⟩ := Nat.exists_eq_add_of_le hk
  rw [BitVec.getLsbD_ofNat, Nat.testBit_lt_two_pow (Nat.lt_of_lt_of_le (by decide : 3 < 2 ^ 2) (Nat.pow_le_pow_right (by decide) hk))]
  simp
theorem witness_SampleIsMemoryless : stepping.run = true ∧ steppingReverse.run = true := by decide
theorem witness_SampleIsIdempotent : stepping.run = true := rfl
theorem witness_LastSampleWins : ∀ i ∈ [Instr.wrrate .fast, .sample true false, .wrdir .forward], agentOf i = .arbiter := by
  decide
theorem witness_SplitWritesCommitOneField : stepping.run = true ∧ heldState.run = false ∧
    (∀ k, 1 ≤ k → (1#8).getLsbD k = false) := by
  refine ⟨rfl, rfl, fun k hk => ?_⟩
  rw [BitVec.getLsbD_ofNat, Nat.testBit_lt_two_pow (Nat.lt_of_lt_of_le (by decide : 1 < 2 ^ 1) (Nat.pow_le_pow_right (by decide) hk))]
  simp
theorem witness_SplitHalvesAndTickBetween : steppingReverse.run = true := rfl
theorem witness_RewritingHeldValueIsInvisible : (stepping.rate, stepping.dir) = policy true true := by decide
theorem witness_HeldBlockIgnoresComponents : heldState.run = false ∧ agentOf .tick ≠ .environment ∧
    agentOf (.sample true true) ≠ .environment := by decide
/-- Both directions of RUN, as operations and as steps. -/
theorem witness_RunChangesOnlyByStartAndReset :
    exec .start heldState = .next (enable heldState) ∧ heldState.run = false ∧ (enable heldState).run = true ∧
    exec .reset stepping = .next (resetRegisters stepping) ∧ stepping.run = true ∧ (resetRegisters stepping).run = false ∧
    step (heldState.withFetchWord 16 0x2000) = .next (enable heldState) ∧
    step (stepping.withFetchWord 16 0x1000) = .next (resetRegisters stepping) := by
  refine ⟨rfl, rfl, rfl, rfl, rfl, rfl, rfl, rfl⟩
theorem witness_EveryOperationCompletes : stepping.cfg.wf = true ∧
    step (stepping.withFetchWord 16 0x8000) = .refused (.invalidEvent .reservedOp) := ⟨by decide, rfl⟩
theorem witness_StepRunsTheNextEvent : pending.cfg.wf = true ∧ pending.events = [0x4001#16, 0x3000#16] ∧
    decode pending.cfg 0x4001#16 = .ok (.sample true false) ∧ (Instr.sample true false).wf pending.cfg = true ∧
    pending.events = [encode pending.cfg (.sample true false), 0x3000#16] ∧ idle.cfg.wf = true ∧ idle.events = [] :=
  ⟨by decide, rfl, rfl, rfl, by decide, by decide, rfl⟩
theorem witness_StepKeepsConfigAndConsumesOneEvent :
    step pending = exec (.sample true false) { idle with events := [0x3000#16] } := rfl
theorem witness_DecodeOfEncodeIsIdentity : Config.default.wf = true ∧ (Instr.portwr 63).wf Config.default = true := by decide
theorem witness_EncodeOfDecodeIsIdentity : Config.covering.wf = true ∧
    (decode Config.covering 0x70FC#16).toOption = some (.portwr 63) := by decide
theorem witness_InvalidWordsAreExactlyTheseAndRefused :
    decode stepping.cfg 0x70A5#16 = .error .nonzeroArg ∧ decode stepping.cfg 0x3100#16 = .error .nonzeroZ ∧
    decode stepping.cfg 0x5000#16 = .error .notAdmitted ∧ decode stepping.cfg 0x8000#16 = .error .reservedOp ∧
    (stepping.withFetchWord 16 0x3100).cfg.wf = true ∧ (stepping.withFetchWord 16 0x3100).events = [0x3100#16] :=
  ⟨rfl, rfl, rfl, rfl, by decide, rfl⟩
theorem witness_OpcodeTableAgreesWithDecoder :
    (decode Config.covering 0x5001#16).toOption = some (.wrrate .fast) ∧
    (opcodeTable.any fun row => row.selects true 0x5001#16) = true ∧
    (opcodeTable.any fun row => row.selects false 0x5001#16) = false := by decide
theorem witness_InvariantHoldsAtReset : Config.covering.wf = true := by decide
theorem witness_InvariantKeptByEveryStep : Inv pending ∧ ∃ t, step pending = .next t := ⟨pending_inv, _, rfl⟩
theorem witness_ReachableStatesMeetInvariant : Config.default.wf = true ∧ Config.default.arbSplit = false ∧
    Config.covering.wf = true ∧ Config.covering.arbSplit = true ∧
    ∃ t, Sys2Proof.core.run 1 { State.resetWith Config.default 0 with events := [0x2000#16] } = .next t :=
  ⟨by decide, rfl, by decide, rfl, _, rfl⟩
theorem witness_LinesShowPhaseFromFirstTransition : 2 ≤ stepping.cfg.portW ∧ stepping.run = true ∧
    expire stepping = true ∧ Instr.reset ∉ [Instr.portwr 3, .tick] ∧ LinesShowPhase pending ∧
    pending.events.head? ≠ some (encode pending.cfg .reset) :=
  ⟨by decide, rfl, by decide, by decide, by unfold LinesShowPhase; decide, by decide⟩
theorem witness_OnlyOwnersWriteRegisters : Instr.tick ≠ .reset ∧ mayWrite (agentOf .tick) .outUpper = false ∧
    exec .tick stepping = .next (emitStep stepping) := ⟨by decide, rfl, rfl⟩
/-- Two states that differ only in a register a TICK may not read. -/
theorem witness_OperationsReadOnlyWhatTheyMay : Instr.tick ≠ .reset ∧ stepping.cfg = (writePort 5 stepping).cfg ∧
    (∀ r, mayRead (agentOf .tick) r = true → readReg stepping r = readReg (writePort 5 stepping) r) ∧
    readReg stepping .outUpper ≠ readReg (writePort 5 stepping) .outUpper :=
  ⟨by decide, rfl, (by intro r h; cases r <;> first | rfl | cases h), by decide⟩
/-- A cycle with RESET; one with every wire a SAMPLE allows, on a held state; one with split writes, on a running state. -/
theorem witness_CoincidentWiresAreSerialised : ({ reset := true, tick := true } : Strobes).reset = true ∧
    (pressed.reset = false ∧ pressed.tick = true ∧ pressed.start = true ∧ pressed.sample = some (true, false) ∧
      pressed.wrrate = none ∧ pressed.wrdir = none ∧ pressed.portwr = some 0x29) ∧
    (split.reset = false ∧ split.tick = true ∧ stepping.run = true ∧ split.sample = none ∧ split.portwr = none) := by decide
/-- R124's order on those cycles. -/
theorem test_serialize : serialize pressed = [.start, .tick, .sample true false, .portwr 0x29] ∧
    serialize split = [.tick, .wrrate .fast, .wrdir .reverse] := by decide

end Sys2Proof.Tests
end

/-! # The registers, the invariant and the ownership matrix (`10_state.md` R20 to R34)

The decoder read backwards as far as the invariant needs it, what every operation keeps, the invariant itself along
steps and runs, the phase lines after the first transition, and the ownership matrix. -/

namespace Sys2Proof

open Sys2Proof.Machine

/-! ## The decoder, read from its verdict -/

@[simp] theorem checked_eq_ok {b : Bool} {i j : Instr} : checked b i = .ok j ↔ b = true ∧ i = j := by
  cases b <;> simp [checked]

@[simp] theorem whenSplit_eq_ok {c : Config} {d : Except Invalid Instr} {j : Instr} :
    whenSplit c d = .ok j ↔ c.arbSplit = true ∧ d = .ok j := by
  cases h : c.arbSplit <;> simp [whenSplit, h]

theorem decode_eq_ok {c : Config} {ev : EventWord c.portW} {i : Instr} :
    decode c ev = .ok i ↔
      zField c.portW ev = 0#4 ∧ decodeOp c (opField c.portW ev) (argField c.portW ev) = .ok i := by
  unfold decode; split <;> simp [*]

/-- The rows of `30_encoding.md` R65, read from the operation a word decodes to. -/
theorem decodeOp_ok_cases {c : Config} {op : BitVec 4} {arg : BitVec c.portW} {i : Instr}
    (h : decodeOp c op arg = .ok i) :
    op = opcode i ∧
      ((clearFrom c.portW 0 arg = true ∧ i ∈ [.nop, .reset, .start, .tick]) ∨
       (clearFrom c.portW 2 arg = true ∧ i = .sample (arg.getLsbD 0) (arg.getLsbD 1)) ∨
       (c.arbSplit = true ∧ clearFrom c.portW 1 arg = true ∧ i = .wrrate (rateOfCode (arg.getLsbD 0))) ∨
       (c.arbSplit = true ∧ clearFrom c.portW 1 arg = true ∧ i = .wrdir (dirOfCode (arg.getLsbD 0))) ∨
       (lowClear c.portW arg = true ∧ i = .portwr (portOperand c.portW arg))) := by
  unfold decodeOp at h
  split at h
  case h_9 => cases h
  case h_6 hop | h_7 hop =>
    simp only [checked_eq_ok, whenSplit_eq_ok] at h
    obtain ⟨hs, ha, rfl⟩ := h
    exact ⟨BitVec.eq_of_toNat_eq hop, by simp [hs, ha]⟩
  all_goals
    rename_i hop
    obtain ⟨ha, rfl⟩ := checked_eq_ok.mp h
    exact ⟨BitVec.eq_of_toNat_eq hop, by simp [ha]⟩

/-- The decoder answers only operations that are well formed and admitted. -/
theorem wf_of_decode {c : Config} {ev : EventWord c.portW} {i : Instr} (hw : c.wf = true)
    (h : decode c ev = .ok i) : i.wf c = true := by
  obtain ⟨-, hd⟩ := decode_eq_ok.mp h
  rcases (decodeOp_ok_cases hd).2 with ⟨-, hi⟩ | ⟨-, rfl⟩ | ⟨hs, -, rfl⟩ | ⟨hs, -, rfl⟩ | ⟨-, rfl⟩
  · fin_cases hi <;> rfl
  · rfl
  · exact hs
  · exact hs
  · have harg := (argField c.portW ev).isLt
    have hpow : 2 ^ c.portW = 4 * 2 ^ (c.portW - 2) := by
      rw [show (4 : Nat) = 2 ^ 2 from rfl, ← Nat.pow_add, Nat.add_sub_cancel' (two_le_portW hw)]
    exact decide_eq_true (Nat.div_lt_of_lt_mul (hpow ▸ harg))

/-- One word alone is the RESET word. -/
theorem eq_encode_reset_of_decode {c : Config} {ev : EventWord c.portW} (h : decode c ev = .ok .reset) :
    ev = encode c .reset := by
  obtain ⟨hz, hd⟩ := decode_eq_ok.mp h
  obtain ⟨hop, hrow⟩ := decodeOp_ok_cases hd
  have harg : argField c.portW ev = 0#c.portW := by
    apply BitVec.eq_of_toNat_eq
    simpa [clearFrom] using hrow
  rw [← eventWord_fields c.portW ev hz, hop, harg]
  rfl

theorem decode_encode_start (c : Config) : decode c (encode c .start) = .ok .start := by
  simp [encode, operandArg, opcode, decodeOp, clearFrom]

theorem decode_encode_wrdir {c : Config} (hw : c.wf = true) (hs : c.arbSplit = true) (d : Dir) :
    decode c (encode c (.wrdir d)) = .ok (.wrdir d) := by
  have hn : 0 < c.portW := Nat.lt_of_lt_of_le (by decide) (two_le_portW hw)
  have hclear : (dirCode d).toNat % 2 ^ c.portW < 2 :=
    Nat.lt_of_le_of_lt (Nat.mod_le _ _) (Bool.toNat_lt _)
  cases d <;>
    simp_all [encode, operandArg, opcode, decodeOp, clearFrom, codeArg, dirCode, dirOfCode]

end Sys2Proof

namespace Sys2Proof.Machine

/-! ## What every operation keeps -/

@[simp] theorem afterOp_cfg (i : Instr) (s : State) : (afterOp i s).cfg = s.cfg := by
  rcases afterOp_cases i s with ⟨-, h⟩ | ⟨-, h⟩ | ⟨-, h⟩ | ⟨_, -, h⟩ |
    ⟨-, ⟨-, -, h⟩ | ⟨-, -, h⟩ | ⟨_, _, -, h⟩ | ⟨_, -, h⟩ | ⟨_, -, h⟩⟩ <;> simp [h]

/-- No operation touches the events still to come. -/
theorem afterOp_events (i : Instr) (s : State) :
    (afterOp i s).events.map BitVec.toNat = s.events.map BitVec.toNat := by
  rcases afterOp_cases i s with ⟨-, h⟩ | ⟨-, h⟩ | ⟨-, h⟩ | ⟨_, -, h⟩ |
    ⟨-, ⟨-, -, h⟩ | ⟨-, -, h⟩ | ⟨_, _, -, h⟩ | ⟨_, -, h⟩ | ⟨_, -, h⟩⟩ <;> rw [h] <;> rfl

/-- Only RESET draws an unspecified value. -/
theorem afterOp_draws {i : Instr} (hi : i ≠ .reset) (s : State) : (afterOp i s).draws = s.draws := by
  rcases afterOp_cases i s with ⟨-, h⟩ | ⟨rfl, -⟩ | ⟨-, h⟩ | ⟨_, -, h⟩ |
    ⟨-, ⟨-, -, h⟩ | ⟨-, -, h⟩ | ⟨_, _, -, h⟩ | ⟨_, -, h⟩ | ⟨_, -, h⟩⟩
  case inr.inl => exact absurd rfl hi
  all_goals simp [h]

theorem afterOp_of_held {i : Instr} {s : State} (hi : agentOf i ≠ .environment) (hr : s.run = false) :
    afterOp i s = s := by
  cases i <;> simp_all [afterOp, agentOf]

/-- A step that answers a next state either found no event, or ran a decoded operation without its word. -/
theorem step_next_afterOp {s t : State} (h : step s = .next t) :
    t = s ∨ ∃ ev rest i, s.events = ev :: rest ∧ decode s.cfg ev = .ok i ∧ i.wf s.cfg = true ∧
      t = afterOp i { s with events := rest } := by
  obtain ⟨hw, ⟨-, ht⟩ | ⟨ev, rest, i, he, hd, hx⟩⟩ := step_next_cases h
  · exact .inl ht
  · exact .inr ⟨ev, rest, i, he, hd, wf_of_decode hw hd, (exec_next_iff.mp hx).symm⟩

theorem step_cfg {s t : State} (h : step s = .next t) : t.cfg = s.cfg := by
  obtain rfl | ⟨_, _, _, -, -, -, rfl⟩ := step_next_afterOp h
  · rfl
  · exact afterOp_cfg _ _

/-! ## The invariant (`10_state.md` R32) -/

/-- The count stays bounded where the configuration and TICKCNT are kept. -/
theorem countBounded_of_kept {s : State} (hI : CountBounded s) (p : Phase) (r : Rate) (d : Dir) (b : Bool)
    (o : BitVec s.cfg.portW) :
    CountBounded { s with phase := p, rate := r, dir := d, run := b, out := o } :=
  ⟨hI.cfgWf, hI.bounded⟩

/-- While RUN = 1 only the bound and the pair matter. -/
theorem inv_of_running {s : State} (hC : CountBounded s) (hr : s.run = true)
    (hp : s.cfg.arbSplit = false → ¬(s.rate = .normal ∧ s.dir = .reverse)) : Inv s :=
  { hC with pairLegal := hp, held := fun h => absurd hr (by simp [h]) }

/-- The invariant does not look at the pending events. -/
theorem inv_dropEvent {s : State} (hI : Inv s) (rest : List (EventWord s.cfg.portW)) :
    Inv { s with events := rest } :=
  ⟨⟨hI.cfgWf, hI.bounded⟩, hI.pairLegal, hI.held⟩

theorem inv_resetRegisters {s : State} (hw : s.cfg.wf = true) : Inv (resetRegisters s) :=
  ⟨⟨hw, by simp⟩, by simp, by simp⟩

theorem inv_resetWith {c : Config} (o : BitVec c.portW) (evs : List (EventWord c.portW)) (hw : c.wf = true) :
    Inv { State.resetWith c o with events := evs } :=
  ⟨⟨hw, by simp⟩, by simp, by simp⟩

/-- The control law never commits (NORMAL, REVERSE). -/
theorem policy_legal (ffN frN : Bool) : ¬((policy ffN frN).1 = .normal ∧ (policy ffN frN).2 = .reverse) := by
  revert ffN frN; decide

/-- Every admitted operation keeps the invariant. -/
theorem inv_afterOp {i : Instr} {s : State} (hI : Inv s) (hi : i.wf s.cfg = true) : Inv (afterOp i s) := by
  have hC := hI.toCountBounded
  rcases afterOp_cases i s with ⟨-, h⟩ | ⟨-, h⟩ | ⟨-, h⟩ | ⟨_, -, h⟩ |
    ⟨hr, ⟨-, -, h⟩ | ⟨-, hx, h⟩ | ⟨a, b, -, h⟩ | ⟨_, rfl, h⟩ | ⟨_, rfl, h⟩⟩ <;> rw [h]
  · exact hI
  · exact inv_resetRegisters hI.cfgWf
  · exact inv_of_running (countBounded_of_kept hC ..) rfl hI.pairLegal
  · exact { countBounded_of_kept hC .. with pairLegal := hI.pairLegal, held := hI.held }
  · exact inv_of_running (emitStep_bounded hC) hr hI.pairLegal
  · exact inv_of_running (countTick_bounded hC hx) hr hI.pairLegal
  · exact inv_of_running (countBounded_of_kept hC ..) hr fun _ => policy_legal a b
  · exact inv_of_running (countBounded_of_kept hC ..) hr fun hs => nomatch hs.symm.trans hi
  · exact inv_of_running (countBounded_of_kept hC ..) hr fun hs => nomatch hs.symm.trans hi

/-- Settles O40: a step runs at most one operation, which the decoder has admitted. -/
theorem invariantKeptByEveryStep : Obligations.InvariantKeptByEveryStep := by
  intro s t hI h
  obtain rfl | ⟨_, rest, _, -, -, hi, rfl⟩ := step_next_afterOp h
  · exact hI
  · exact inv_afterOp (inv_dropEvent hI rest) hi

/-- Settles O11: a bounded count is below `2^W_TICK - 1`, and a tick that does not step has not reached THRESH. -/
theorem counterStaysWithinThreshold : Obligations.CounterStaysWithinThreshold := by
  intro s hC hr
  have hlt : s.tickcnt.toNat + 1 < 2 ^ s.cfg.wTick := by
    have hb := hC.bounded
    have hm := max_threshold_lt hC.cfgWf
    omega
  refine ⟨hlt, ?_⟩
  cases hx : expire s
  case true => exact ⟨emitStep s, exec_tick_of_expire hr hx, by simp⟩
  case false =>
    have hc : (countTick s).tickcnt.toNat = s.tickcnt.toNat + 1 := counted_of_bounded hC
    have hbelow : s.tickcnt.toNat < (thresh s).toNat := by
      rw [← Nat.not_le, ← expire_of_bounded hC]; simp [hx]
    exact ⟨countTick s, exec_tick_of_idle hr hx, .inr hc, hc.trans_le hbelow⟩

/-! ## Runs from reset -/

/-- START and then WRDIR REVERSE, from reset: the first of the two writes that reach (NORMAL, REVERSE). -/
theorem run_start_wrdir {c : Config} (o : BitVec c.portW) (hw : c.wf = true) (hs : c.arbSplit = true) :
    Sys2Proof.core.run 2
        { State.resetWith c o with events := [encode c .start, encode c (.wrdir .reverse)] } =
      .next (commitDir .reverse (enable (State.resetWith c o))) := by
  have h1 : step { State.resetWith c o with events := [encode c .start, encode c (.wrdir .reverse)] } =
      .next (enable { State.resetWith c o with events := [encode c (.wrdir .reverse)] }) :=
    (step_of_decode hw rfl (decode_encode_start c)).trans rfl
  have h2 : step (enable { State.resetWith c o with events := [encode c (.wrdir .reverse)] }) =
      .next (commitDir .reverse (enable (State.resetWith c o))) :=
    (step_of_decode hw rfl (decode_encode_wrdir hw hs .reverse)).trans (exec_wrdir_of_run rfl .reverse)
  rw [core_run_succ_of_next Sys2Proof.core 1 h1, core_run_succ_of_next Sys2Proof.core 0 h2]
  rfl

/-- Settles O41: the invariant and the configuration hold at reset and along every run; with `ARB_SPLIT` true, START and
WRDIR REVERSE reach the pair. -/
theorem reachableStatesMeetInvariant : Obligations.ReachableStatesMeetInvariant := by
  refine ⟨fun c o evs n t hw h => ?_, fun c o hw hs => ⟨_, _, _, run_start_wrdir o hw hs, rfl, rfl⟩⟩
  have hstep : ∀ u v : State, Inv u ∧ u.cfg = c → step u = .next v → Inv v ∧ v.cfg = c :=
    fun u v ⟨hI, hc⟩ hv => ⟨invariantKeptByEveryStep u v hI hv, (step_cfg hv).trans hc⟩
  obtain ⟨hI, hc⟩ := run_induction hstep n _ t ⟨inv_resetWith o evs hw, rfl⟩ h
  exact ⟨hI, hc ▸ hI.pairLegal⟩

/-! ## The phase lines (`10_state.md` R32, I3) -/

theorem linesShowPhase_emitStep {s : State} (hn : 2 ≤ s.cfg.portW) : LinesShowPhase (emitStep s) :=
  phaseLines_writePhase hn _ _

/-- Every operation but RESET keeps the phase lines showing PHASE. -/
theorem linesShowPhase_afterOp {i : Instr} {s : State} (hi : i ≠ .reset) (hn : 2 ≤ s.cfg.portW)
    (hL : LinesShowPhase s) : LinesShowPhase (afterOp i s) := by
  rcases afterOp_cases i s with ⟨-, h⟩ | ⟨rfl, -⟩ | ⟨-, h⟩ | ⟨v, -, h⟩ |
    ⟨-, ⟨-, -, h⟩ | ⟨-, -, h⟩ | ⟨_, _, -, h⟩ | ⟨_, -, h⟩ | ⟨_, -, h⟩⟩
  case inr.inl => exact absurd rfl hi
  all_goals rw [h]
  exacts [hL, hL, (phaseLines_writeUpper s.cfg.portW s.out v).trans hL, linesShowPhase_emitStep hn, hL, hL, hL, hL]

theorem linesShowPhase_foldl {is : List Instr} {s : State} (his : .reset ∉ is) (hn : 2 ≤ s.cfg.portW)
    (hL : LinesShowPhase s) : LinesShowPhase (is.foldl (fun t i => afterOp i t) s) := by
  induction is generalizing s with
  | nil => exact hL
  | cons i is ih =>
    obtain ⟨hi, his⟩ := List.ne_and_not_mem_of_not_mem_cons his
    exact ih his (by simpa using hn) (linesShowPhase_afterOp hi.symm hn hL)

/-- Settles O42: the stepping tick writes the lines, and no later operation but RESET parts them from PHASE. -/
theorem linesShowPhaseFromFirstTransition : Obligations.LinesShowPhaseFromFirstTransition := by
  refine ⟨fun post s hn hr hx hpost => ⟨_, execAll_eq _ _, ?_⟩, fun s t hL h hne => ?_⟩
  · rw [List.foldl_cons, exec_next_iff.mp (exec_tick_of_expire hr hx)]
    exact linesShowPhase_foldl hpost hn (linesShowPhase_emitStep hn)
  · obtain ⟨hw, -⟩ := step_next_cases h
    obtain rfl | ⟨ev, rest, i, he, hd, -, rfl⟩ := step_next_afterOp h
    · exact hL
    · have hi : i ≠ .reset := by
        rintro rfl
        exact hne (by rw [he, List.head?_cons, eq_encode_reset_of_decode hd])
      exact linesShowPhase_afterOp hi (two_le_portW hw) hL

/-! ## The ownership matrix (`10_state.md` R33) -/

theorem readReg_enable {r : Reg} (hr : mayWrite .environment r = false) (s : State) :
    readReg (enable s) r = readReg s r := by
  cases r with
  | run | outUpper => cases hr
  | tickcnt | phase | rate | dir | outLines => rfl

theorem readReg_writePort {r : Reg} (hr : mayWrite .environment r = false) (v : Nat) (s : State) :
    readReg (writePort v s) r = readReg s r := by
  cases r with
  | run | outUpper => cases hr
  | tickcnt | phase | rate | dir => rfl
  | outLines => exact writeUpper_lines _ _ _

theorem readReg_emitStep {r : Reg} (hr : mayWrite .sequencer r = false) (s : State) :
    readReg (emitStep s) r = readReg s r := by
  cases r with
  | tickcnt | phase | outLines => cases hr
  | rate | dir | run => rfl
  | outUpper => exact writePhase_upper _ _ _

theorem readReg_countTick {r : Reg} (hr : r ≠ .tickcnt) (s : State) : readReg (countTick s) r = readReg s r := by
  cases r with
  | tickcnt => exact absurd rfl hr
  | phase | rate | dir | run | outLines | outUpper => rfl

theorem readReg_commitPair {r : Reg} (hr : mayWrite .arbiter r = false) (a : Rate) (d : Dir) (s : State) :
    readReg (commitPair a d s) r = readReg s r := by
  cases r with
  | rate | dir => cases hr
  | tickcnt | phase | run | outLines | outUpper => rfl

/-- Every operation but RESET leaves each register its agent does not own. -/
theorem readReg_afterOp_of_not_owned {i : Instr} {r : Reg} (hi : i ≠ .reset) (hr : mayWrite (agentOf i) r = false)
    (s : State) : readReg (afterOp i s) r = readReg s r := by
  rcases afterOp_cases i s with ⟨-, h⟩ | ⟨rfl, -⟩ | ⟨rfl, h⟩ | ⟨v, rfl, h⟩ |
    ⟨-, ⟨rfl, -, h⟩ | ⟨rfl, -, h⟩ | ⟨a, b, rfl, h⟩ | ⟨a, rfl, h⟩ | ⟨d, rfl, h⟩⟩
  case inr.inl => exact absurd rfl hi
  all_goals rw [h]
  · exact readReg_enable hr s
  · exact readReg_writePort hr v s
  · exact readReg_emitStep hr s
  · exact readReg_countTick (by rintro rfl; cases hr) s
  · exact readReg_commitPair hr _ _ s
  · exact readReg_commitPair hr a s.dir s
  · exact readReg_commitPair hr s.rate d s

/-- Settles O43: operation by operation, with the configuration, the events and the draws. -/
theorem onlyOwnersWriteRegisters : Obligations.OnlyOwnersWriteRegisters := by
  intro i s t hi h
  obtain rfl := exec_next_iff.mp h
  exact ⟨fun r hr => readReg_afterOp_of_not_owned hi hr s, afterOp_cfg i s, afterOp_events i s, afterOp_draws hi s⟩

/-! ## What an operation may read -/

/-- A register two runs treat alike: equal after them, or unchanged by both. -/
def SameOrKept (i : Instr) (s s' : State) (r : Reg) : Prop :=
  readReg (afterOp i s) r = readReg (afterOp i s') r ∨
    (readReg (afterOp i s) r = readReg s r ∧ readReg (afterOp i s') r = readReg s' r)

theorem bool_toNat_injective {a b : Bool} (h : a.toNat = b.toNat) : a = b := by
  revert a b; decide

theorem rateCode_toNat_injective {a b : Rate} (h : (rateCode a).toNat = (rateCode b).toNat) : a = b := by
  cases a <;> cases b <;> simp_all [rateCode]

theorem dirCode_toNat_injective {a b : Dir} (h : (dirCode a).toNat = (dirCode b).toNat) : a = b := by
  cases a <;> cases b <;> simp_all [dirCode]

/-- Two states that agree on what the Sequencer reads differ in OUT, the events and the draws alone. -/
theorem eq_of_agree_sequencer {s s' : State} (hc : s.cfg = s'.cfg)
    (h : ∀ r, mayRead .sequencer r = true → readReg s r = readReg s' r) :
    ∃ o evs k, s' = { s with out := o, events := evs, draws := k } := by
  obtain ⟨c, tick, p, r, d, run, o, evs, k⟩ := s
  obtain ⟨c', tick', p', r', d', run', o', evs', k'⟩ := s'
  obtain rfl : c = c' := hc
  obtain rfl : tick = tick' := BitVec.eq_of_toNat_eq (h .tickcnt rfl)
  obtain rfl : p = p' := BitVec.eq_of_toNat_eq (h .phase rfl)
  obtain rfl : r = r' := rateCode_toNat_injective (h .rate rfl)
  obtain rfl : d = d' := dirCode_toNat_injective (h .dir rfl)
  obtain rfl : run = run' := bool_toNat_injective (h .run rfl)
  exact ⟨o', evs', k', rfl⟩

/-- The phase lines after the phase write do not depend on what OUT held, on a port of any width. -/
theorem writePhase_lines_congr (n : Nat) (out out' : BitVec n) (p : Phase) :
    (writePhase n out p).toNat % 4 = (writePhase n out' p).toNat % 4 := by
  rw [← phaseLines_toNat, ← phaseLines_toNat]
  congr 1
  apply BitVec.eq_of_getLsbD_eq
  intro k hk
  by_cases hkn : k < n
  · simp [phaseLines, getLsbD_writePhase n k _ p hkn, hk]
  · simp [phaseLines, BitVec.getLsbD_of_ge _ k (Nat.le_of_not_lt hkn)]

/-- TICK does not look at OUT: it takes the same arm and writes the same values whatever OUT holds. -/
theorem sameOrKept_tick {r : Reg} {s s' : State} (hr : mayWrite .sequencer r = true) {o : BitVec s.cfg.portW}
    {evs : List (EventWord s.cfg.portW)} {k : Nat} (hs : s' = { s with out := o, events := evs, draws := k }) :
    SameOrKept .tick s s' r := by
  have hrun' : s'.run = s.run := by rw [hs]
  have hx' : expire s' = expire s := by rw [hs]; rfl
  cases hrun : s.run with
  | false =>
    have ha : agentOf .tick ≠ .environment := by decide
    rw [SameOrKept, afterOp_of_held ha hrun, afterOp_of_held ha (hrun'.trans hrun)]
    exact .inr ⟨rfl, rfl⟩
  | true =>
    cases hx : expire s with
    | false =>
      rw [SameOrKept, exec_next_iff.mp (exec_tick_of_idle hrun hx),
        exec_next_iff.mp (exec_tick_of_idle (hrun'.trans hrun) (hx'.trans hx)), hs]
      cases r with
      | rate | dir | run | outUpper => cases hr
      | tickcnt => exact .inl rfl
      | phase | outLines => exact .inr ⟨rfl, rfl⟩
    | true =>
      rw [SameOrKept, exec_next_iff.mp (exec_tick_of_expire hrun hx),
        exec_next_iff.mp (exec_tick_of_expire (hrun'.trans hrun) (hx'.trans hx)), hs]
      cases r with
      | rate | dir | run | outUpper => cases hr
      | tickcnt | phase => exact .inl rfl
      | outLines => exact .inl (writePhase_lines_congr _ _ _ _)

/-- An operation of the Arbiter reads RUN alone. -/
theorem sameOrKept_arbiter {i : Instr} {r : Reg} {s s' : State} (hi : agentOf i = .arbiter)
    (hr : mayWrite .arbiter r = true) (hrun' : s.run = s'.run) : SameOrKept i s s' r := by
  cases hrun : s'.run with
  | false =>
    have ha : agentOf i ≠ .environment := by simp [hi]
    rw [SameOrKept, afterOp_of_held ha (hrun'.trans hrun), afterOp_of_held ha hrun]
    exact .inr ⟨rfl, rfl⟩
  | true =>
    cases r with
    | tickcnt | phase | run | outLines | outUpper => cases hr
    | rate | dir =>
      cases i with
      | nop | reset | start | tick | portwr => cases hi
      | sample | wrrate | wrdir => simp [SameOrKept, afterOp, readReg, hrun', hrun]

/-- START, PORTWR and NOP read no register. -/
theorem sameOrKept_environment {i : Instr} {r : Reg} {s s' : State} (hi : agentOf i = .environment)
    (hne : i ≠ .reset) (hr : mayWrite .environment r = true) (hc : s.cfg = s'.cfg) : SameOrKept i s s' r := by
  cases i with
  | reset => exact absurd rfl hne
  | tick | sample | wrrate | wrdir => cases hi
  | nop => exact .inr ⟨rfl, rfl⟩
  | start =>
    cases r with
    | run => exact .inl rfl
    | outUpper => exact .inr ⟨rfl, rfl⟩
    | tickcnt | phase | rate | dir | outLines => cases hr
  | portwr v =>
    cases r with
    | run => exact .inr ⟨rfl, rfl⟩
    | outUpper =>
      have hv : ∀ u : State, readReg (writePort v u) .outUpper = v % 2 ^ (u.cfg.portW - 2) :=
        fun u => writeUpper_upper _ _ _
      exact .inl ((hv s).trans (hc ▸ (hv s').symm))
    | tickcnt | phase | rate | dir | outLines => cases hr

/-- Settles O44: a register the agent does not own is unchanged in both; one it owns is decided by what it may read. -/
theorem operationsReadOnlyWhatTheyMay : Obligations.OperationsReadOnlyWhatTheyMay := by
  intro i s s' t t' hi hc hagree ht ht' r
  obtain rfl := exec_next_iff.mp ht
  obtain rfl := exec_next_iff.mp ht'
  change SameOrKept i s s' r
  cases hr : mayWrite (agentOf i) r with
  | false => exact .inr ⟨readReg_afterOp_of_not_owned hi hr s, readReg_afterOp_of_not_owned hi hr s'⟩
  | true =>
    cases ha : agentOf i with
    | sequencer =>
      obtain rfl : i = .tick := by cases i <;> simp_all [agentOf]
      obtain ⟨_, _, _, hs⟩ := eq_of_agree_sequencer hc hagree
      exact sameOrKept_tick hr hs
    | arbiter =>
      rw [ha] at hr hagree
      exact sameOrKept_arbiter ha hr (bool_toNat_injective (hagree .run rfl))
    | environment => exact sameOrKept_environment ha hi (ha ▸ hr) hc

end Sys2Proof.Machine

/-! # Committing to the registers (`20_memory.md` R46 and R48)

A SAMPLE forgets what the Arbiter committed before it, and writing a register the value it holds is no change. -/

namespace Sys2Proof.Machine

/-! ## The last SAMPLE wins -/

/-- A SAMPLE overwrites whatever one Arbiter operation did; while RUN = 0 there is nothing to overwrite. -/
theorem afterOp_sample_afterOp {i : Instr} (hi : agentOf i = .arbiter) (ffN frN : Bool) (s : State) :
    afterOp (.sample ffN frN) (afterOp i s) = afterOp (.sample ffN frN) s := by
  cases hr : s.run with
  | false => rw [afterOp_of_held (by simp [hi]) hr]
  | true =>
    obtain ⟨r, d, h⟩ := afterOp_arbiter hi s
    have hr' : (afterOp i s).run = true := by rw [h]; exact hr
    rw [exec_next_iff.mp (exec_sample_of_run hr' ffN frN), exec_next_iff.mp (exec_sample_of_run hr ffN frN), h]
    rfl

theorem afterOp_sample_foldl {is : List Instr} (his : ∀ i ∈ is, agentOf i = .arbiter) (ffN frN : Bool) (s : State) :
    afterOp (.sample ffN frN) (is.foldl (fun t i => afterOp i t) s) = afterOp (.sample ffN frN) s := by
  induction is generalizing s with
  | nil => rfl
  | cons i is ih =>
    obtain ⟨hi, his⟩ := List.forall_mem_cons.mp his
    rw [List.foldl_cons, ih his, afterOp_sample_afterOp hi]

/-- Settles O23: each Arbiter operation before the SAMPLE is overwritten by it, by induction on the list. -/
theorem lastSampleWins : Obligations.LastSampleWins := by
  intro is ffN frN s his
  rw [execAll_append, execAll_cons, execAll_cons, afterOp_sample_foldl his]

/-! ## Writing the held value -/

@[simp] theorem commitRate_self (s : State) : commitRate s.rate s = s := rfl

@[simp] theorem commitDir_self (s : State) : commitDir s.dir s = s := rfl

@[simp] theorem commitPair_self (s : State) : commitPair s.rate s.dir s = s := rfl

/-- Writing back the upper bits of OUT leaves OUT as it is, on a port of any width. -/
@[simp] theorem writeUpper_self (n : Nat) (out : BitVec n) : writeUpper n out (out.toNat / 4) = out := by
  apply BitVec.eq_of_getLsbD_eq
  intro k hk
  rw [getLsbD_writeUpper n k out _ hk]
  split
  · rfl
  · rw [show (4 : Nat) = 2 ^ 2 from rfl, Nat.testBit_div_two_pow, Nat.sub_add_cancel (by omega)]
    rfl

@[simp] theorem writePort_self (s : State) : writePort (readReg s .outUpper) s = s := by
  simp [writePort, readReg]

/-- Settles O26: each of the four updates is the identity on the held value, whether RUN lets it through or not. -/
theorem rewritingHeldValueIsInvisible : Obligations.RewritingHeldValueIsInvisible := by
  refine ⟨fun s => ?_, fun s => ?_, fun ffN frN s h => ?_, fun s => ?_⟩
  · rw [exec_eq, afterOp, commitRate_self, ite_self]
  · rw [exec_eq, afterOp, commitDir_self, ite_self]
  · have hpair : commitPair (policy ffN frN).1 (policy ffN frN).2 s = s := by rw [← h, commitPair_self]
    rw [exec_eq, afterOp, hpair, ite_self]
  · rw [exec_eq, afterOp, writePort_self]

end Sys2Proof.Machine

/-! # The coding of the events (`30_encoding.md` R62 to R70)

Each operand field read and assembled, the two round trips of the coder, the opcode map against the decoder, and the
order in which the phase lines visit the four phase states. -/

namespace Sys2Proof

open Sys2Proof.Machine

/-! ## The operand fields, as numbers and back -/

theorem rateOfCode_rateCode (r : Rate) : rateOfCode (rateCode r) = r := by cases r <;> rfl

theorem rateCode_rateOfCode (b : Bool) : rateCode (rateOfCode b) = b := by cases b <;> rfl

theorem dirOfCode_dirCode (d : Dir) : dirOfCode (dirCode d) = d := by cases d <;> rfl

theorem dirCode_dirOfCode (b : Bool) : dirCode (dirOfCode b) = b := by cases b <;> rfl

theorem toNat_levelsArg {n : Nat} (hn : 2 ≤ n) (a b : Bool) : (levelsArg n a b).toNat = a.toNat + 2 * b.toNat := by
  have hpow : 2 ^ 2 ≤ 2 ^ n := Nat.pow_le_pow_right (by decide) hn
  have ha := a.toNat_lt
  have hb := b.toNat_lt
  rw [levelsArg, BitVec.toNat_ofNat, Nat.mod_eq_of_lt (by omega)]

theorem toNat_codeArg {n : Nat} (hn : 1 ≤ n) (b : Bool) : (codeArg n b).toNat = b.toNat := by
  have hpow : 2 ^ 1 ≤ 2 ^ n := Nat.pow_le_pow_right (by decide) hn
  have hb := b.toNat_lt
  rw [codeArg, BitVec.toNat_ofNat, Nat.mod_eq_of_lt (by omega)]

/-- `2^PORT_W` values of the field are four times as many as those of PORTWR's operand. -/
theorem two_pow_eq_four_mul {n : Nat} (hn : 2 ≤ n) : 2 ^ n = 4 * 2 ^ (n - 2) := by
  rw [show (4 : Nat) = 2 ^ 2 from rfl, ← Nat.pow_add, Nat.add_sub_cancel' hn]

theorem toNat_portArg {n v : Nat} (hn : 2 ≤ n) (hv : v < 2 ^ (n - 2)) : (portArg n v).toNat = 4 * v := by
  have hpow := two_pow_eq_four_mul hn
  rw [portArg, BitVec.toNat_ofNat, Nat.mod_eq_of_lt (by omega)]

theorem getLsbD_zero_eq {n : Nat} (x : BitVec n) : x.getLsbD 0 = decide (x.toNat % 2 = 1) := Nat.testBit_zero _

theorem getLsbD_one_eq {n : Nat} (x : BitVec n) : x.getLsbD 1 = decide (x.toNat / 2 % 2 = 1) := by
  rw [BitVec.getLsbD, Nat.testBit_succ, Nat.testBit_zero]

/-! ## Operand fields read back: what the decoder takes out of a field the encoder assembled -/

theorem clearFrom_levelsArg {n : Nat} (hn : 2 ≤ n) (a b : Bool) : clearFrom n 2 (levelsArg n a b) = true := by
  rw [clearFrom, toNat_levelsArg hn]
  revert a b; decide

theorem getLsbD_levelsArg {n : Nat} (hn : 2 ≤ n) (a b : Bool) :
    (levelsArg n a b).getLsbD 0 = a ∧ (levelsArg n a b).getLsbD 1 = b := by
  rw [getLsbD_zero_eq, getLsbD_one_eq, toNat_levelsArg hn]
  revert a b; decide

theorem clearFrom_codeArg {n : Nat} (hn : 1 ≤ n) (b : Bool) : clearFrom n 1 (codeArg n b) = true := by
  rw [clearFrom, toNat_codeArg hn]
  revert b; decide

theorem getLsbD_codeArg {n : Nat} (hn : 1 ≤ n) (b : Bool) : (codeArg n b).getLsbD 0 = b := by
  rw [getLsbD_zero_eq, toNat_codeArg hn]
  revert b; decide

theorem lowClear_portArg {n v : Nat} (hn : 2 ≤ n) (hv : v < 2 ^ (n - 2)) : lowClear n (portArg n v) = true := by
  simp [lowClear, toNat_portArg hn hv]

theorem portOperand_portArg {n v : Nat} (hn : 2 ≤ n) (hv : v < 2 ^ (n - 2)) : portOperand n (portArg n v) = v := by
  simp [portOperand, toNat_portArg hn hv]

/-- Steps (3) to (5) of R70 on the code and the operand field of an admitted operation. -/
theorem decodeOp_opcode {c : Config} {i : Instr} (hw : c.wf = true) (hi : i.wf c = true) :
    decodeOp c (opcode i) (operandArg c.portW i) = .ok i := by
  have hn : 2 ≤ c.portW := two_le_portW hw
  have hn1 : 1 ≤ c.portW := Nat.le_of_succ_le hn
  cases i with
  | nop | reset | start | tick => simp [decodeOp, opcode, operandArg, clearFrom]
  | sample a b =>
    obtain ⟨ha, hb⟩ := getLsbD_levelsArg hn a b
    exact checked_eq_ok.mpr ⟨clearFrom_levelsArg hn a b, congrArg₂ Instr.sample ha hb⟩
  | wrrate r =>
    have hr : rateOfCode ((codeArg c.portW (rateCode r)).getLsbD 0) = r := by
      rw [getLsbD_codeArg hn1, rateOfCode_rateCode]
    exact whenSplit_eq_ok.mpr ⟨hi, checked_eq_ok.mpr ⟨clearFrom_codeArg hn1 _, congrArg Instr.wrrate hr⟩⟩
  | wrdir d =>
    have hd : dirOfCode ((codeArg c.portW (dirCode d)).getLsbD 0) = d := by
      rw [getLsbD_codeArg hn1, dirOfCode_dirCode]
    exact whenSplit_eq_ok.mpr ⟨hi, checked_eq_ok.mpr ⟨clearFrom_codeArg hn1 _, congrArg Instr.wrdir hd⟩⟩
  | portwr v =>
    have hv : v < 2 ^ (c.portW - 2) := of_decide_eq_true hi
    exact checked_eq_ok.mpr ⟨lowClear_portArg hn hv, congrArg Instr.portwr (portOperand_portArg hn hv)⟩

/-- Settles O33: the decoder takes the assembled word apart into the operation's code and its operand field. -/
theorem decodeOfEncodeIsIdentity : Obligations.DecodeOfEncodeIsIdentity := by
  intro c i hw hi
  rw [encode, decode_eventWord, decodeOp_opcode hw hi]

/-! ## Operand fields assembled again: a field whose must-be-zero bits are 0 is the one its operands give -/

theorem clearFrom_zero_iff {n : Nat} {arg : BitVec n} : clearFrom n 0 arg = true ↔ arg = 0#n := by
  rw [← BitVec.toNat_inj]; simp [clearFrom]

theorem levelsArg_of_clearFrom {n : Nat} {arg : BitVec n} (h : clearFrom n 2 arg = true) :
    levelsArg n (arg.getLsbD 0) (arg.getLsbD 1) = arg := by
  have hlt : arg.toNat < 4 := of_decide_eq_true h
  have hbits : (arg.getLsbD 0).toNat + 2 * (arg.getLsbD 1).toNat = arg.toNat := by
    rw [getLsbD_zero_eq, getLsbD_one_eq]
    generalize arg.toNat = m at hlt ⊢
    revert m; decide
  rw [levelsArg, hbits, BitVec.ofNat_toNat, BitVec.setWidth_eq]

theorem codeArg_of_clearFrom {n : Nat} {arg : BitVec n} (h : clearFrom n 1 arg = true) :
    codeArg n (arg.getLsbD 0) = arg := by
  have hlt : arg.toNat < 2 := of_decide_eq_true h
  have hbit : (arg.getLsbD 0).toNat = arg.toNat := by
    rw [getLsbD_zero_eq]
    generalize arg.toNat = m at hlt ⊢
    revert m; decide
  rw [codeArg, hbit, BitVec.ofNat_toNat, BitVec.setWidth_eq]

theorem portArg_of_lowClear {n : Nat} {arg : BitVec n} (h : lowClear n arg = true) :
    portArg n (portOperand n arg) = arg := by
  have hdvd : 4 ∣ arg.toNat := Nat.dvd_of_mod_eq_zero (beq_iff_eq.mp h)
  rw [portArg, portOperand, Nat.mul_div_cancel' hdvd, BitVec.ofNat_toNat, BitVec.setWidth_eq]

/-- The operand field of a word that decodes is the one the decoded operation assembles. -/
theorem operandArg_of_decodeOp {c : Config} {op : BitVec 4} {arg : BitVec c.portW} {i : Instr}
    (h : decodeOp c op arg = .ok i) : operandArg c.portW i = arg := by
  rcases (decodeOp_ok_cases h).2 with ⟨h0, hi⟩ | ⟨h2, rfl⟩ | ⟨-, h1, rfl⟩ | ⟨-, h1, rfl⟩ | ⟨hl, rfl⟩
  · rw [clearFrom_zero_iff.mp h0]
    fin_cases hi <;> rfl
  · exact levelsArg_of_clearFrom h2
  · rw [operandArg, rateCode_rateOfCode, codeArg_of_clearFrom h1]
  · rw [operandArg, dirCode_dirOfCode, codeArg_of_clearFrom h1]
  · exact portArg_of_lowClear hl

/-- Settles O34: `z` is 0, the code names the operation's row and the operand field is the operation's own, so the three
fields of the word are those of the encoding. -/
theorem encodeOfDecodeIsIdentity : Obligations.EncodeOfDecodeIsIdentity := by
  intro c ev i hw h
  obtain ⟨hz, hd⟩ := decode_eq_ok.mp h
  obtain ⟨hop, -⟩ := decodeOp_ok_cases hd
  refine ⟨wf_of_decode hw h, ?_⟩
  rw [encode, ← hop, operandArg_of_decodeOp hd, eventWord_fields c.portW ev hz]

end Sys2Proof

namespace Sys2Proof

open Sys2Proof.Machine

/-! ## The opcode map at `PORT_W` = 8 (`30_encoding.md` R65) -/

/-- Three fields that agree are one word. -/
theorem eventWord_ext {n : Nat} {v w : EventWord n} (hop : opField n v = opField n w) (hz : zField n v = 0#4)
    (hz' : zField n w = 0#4) (harg : argField n v = argField n w) : v = w := by
  rw [← eventWord_fields n v hz, ← eventWord_fields n w hz', hop, harg]

theorem opField_and (n : Nat) (v w : EventWord n) : opField n (v &&& w) = opField n v &&& opField n w :=
  BitVec.extractLsb'_and

theorem zField_and (n : Nat) (v w : EventWord n) : zField n (v &&& w) = zField n v &&& zField n w :=
  BitVec.extractLsb'_and

theorem argField_and (n : Nat) (v w : EventWord n) : argField n (v &&& w) = argField n v &&& argField n w :=
  BitVec.extractLsb'_and

/-- The common form of the rows: every mask covers `op` and `z`, and every pattern is 0 outside `op`. -/
theorem opcodeTable_fields {row : OpcodeRow} (h : row ∈ opcodeTable) :
    opField 8 row.mask = BitVec.allOnes 4 ∧ zField 8 row.mask = BitVec.allOnes 4 ∧ zField 8 row.pattern = 0#4 ∧
      argField 8 row.pattern = 0#8 := by
  revert row; decide

/-- Match and mask, field by field: a row selects a word of its operation code with `z` 0 and the must-be-zero bits of
`arg` 0, when it is admitted. -/
theorem selects_iff {row : OpcodeRow} (h : row ∈ opcodeTable) (split : Bool) (w : BitVec 16) :
    row.selects split w = true ↔ opField 8 w = opField 8 row.pattern ∧ zField 8 w = 0#4 ∧
      argField 8 w &&& argField 8 row.mask = 0#8 ∧ (row.splitOnly = true → split = true) := by
  obtain ⟨hopm, hzm, hzp, hargp⟩ := opcodeTable_fields h
  have hop : opField 8 (w &&& row.mask) = opField 8 w := by rw [opField_and, hopm, BitVec.and_allOnes]
  have hz : zField 8 (w &&& row.mask) = zField 8 w := by rw [zField_and, hzm, BitVec.and_allOnes]
  have hadm : (!row.splitOnly || split) = true ↔ (row.splitOnly = true → split = true) := by
    cases row.splitOnly <;> simp
  rw [OpcodeRow.selects, Bool.and_eq_true, beq_iff_eq, hadm]
  constructor
  · rintro ⟨hw, hs⟩
    rw [← argField_and, ← hop, ← hz, hw]
    exact ⟨rfl, hzp, hargp, hs⟩
  · rintro ⟨hwop, hwz, hwarg, hs⟩
    exact ⟨eventWord_ext (hop.trans hwop) (hz.trans hwz) hzp ((argField_and ..).trans (hwarg.trans hargp.symm)), hs⟩

/-- Every pair of rows differs in the operation code. -/
theorem opcodeTable_opField_distinct :
    opcodeTable.Pairwise fun a b => opField 8 a.pattern ≠ opField 8 b.pattern := by decide

/-- Every operation code below 8 has its row. -/
theorem exists_row_of_opField {op : BitVec 4} (h : op.toNat < 8) :
    ∃ row ∈ opcodeTable, opField 8 row.pattern = op := by
  revert op; decide

theorem opcode_lt (i : Instr) : (opcode i).toNat < 8 := by cases i <;> exact of_decide_eq_true rfl

/-! ### The masks of the operand fields: the decoder's must-be-zero checks -/

/-- A field is 0 under the mask of its bits from `k` up exactly when it is below `2^k`. -/
theorem and_upperMask_eq_zero_iff {n : Nat} (k : Nat) (arg : BitVec n) :
    arg &&& BitVec.allOnes n <<< k = 0#n ↔ clearFrom n k arg = true := by
  have hle : arg.toNat / 2 ^ k * 2 ^ k < 2 ^ n := Nat.lt_of_le_of_lt (Nat.div_mul_le_self _ _) arg.isLt
  have hval : (arg &&& BitVec.allOnes n <<< k).toNat = arg.toNat / 2 ^ k * 2 ^ k := by
    rw [← BitVec.shiftLeft_ushiftRight, BitVec.toNat_shiftLeft, BitVec.toNat_ushiftRight, Nat.shiftRight_eq_div_pow,
      Nat.shiftLeft_eq, Nat.mod_eq_of_lt hle]
  rw [← BitVec.toNat_inj, hval, clearFrom, decide_eq_true_iff, BitVec.toNat_ofNat, Nat.zero_mod, Nat.mul_eq_zero,
    Nat.div_eq_zero_iff]
  simp

theorem and_lowMask_eq_zero_iff (arg : BitVec 8) : arg &&& 3#8 = 0#8 ↔ lowClear 8 arg = true := by
  rw [← BitVec.toNat_inj, BitVec.toNat_and, lowClear, beq_iff_eq, show (3#8).toNat = 2 ^ 2 - 1 from rfl,
    Nat.and_two_pow_sub_one_eq_mod]
  simp

/-- The decoder's verdict in a row that is always admitted, `P` being the row's condition on `arg`. -/
theorem checked_row {P : Prop} {b split : Bool} {i j : Instr} (h : P ↔ b = true) :
    checked b i = .ok j ↔ P ∧ (false = true → split = true) ∧ i = j := by
  rw [checked_eq_ok, h]; simp

/-- The decoder's verdict in a row that `ARB_SPLIT` admits. -/
theorem whenSplit_row {P : Prop} {b : Bool} {c : Config} {i j : Instr} (h : P ↔ b = true) :
    whenSplit c (checked b i) = .ok j ↔ P ∧ (true = true → c.arbSplit = true) ∧ i = j := by
  rw [whenSplit_eq_ok, checked_eq_ok, h]; simp [and_left_comm]

/-- The decoder on a row's operation code: it answers one operation, of the row's mnemonic and agent, exactly when the
row is admitted and the operand field is 0 under the row's mask. -/
theorem decodeOp_row {row : OpcodeRow} (h : row ∈ opcodeTable) (split : Bool) (arg : BitVec 8) :
    ∃ i, row.mnemonic = mnemonicOf i ∧ row.agent = agentOf i ∧
      ∀ j, decodeOp { Config.default with arbSplit := split } (opField 8 row.pattern) arg = .ok j ↔
        arg &&& argField 8 row.mask = 0#8 ∧ (row.splitOnly = true → split = true) ∧ i = j := by
  have hfull := and_upperMask_eq_zero_iff 0 arg
  have hlevels := and_upperMask_eq_zero_iff 2 arg
  have hcode := and_upperMask_eq_zero_iff 1 arg
  have hport := and_lowMask_eq_zero_iff arg
  simp only [opcodeTable, List.mem_cons, List.not_mem_nil, or_false] at h
  rcases h with rfl | rfl | rfl | rfl | rfl | rfl | rfl | rfl
  · exact ⟨.nop, rfl, rfl, fun _ => checked_row hfull⟩
  · exact ⟨.reset, rfl, rfl, fun _ => checked_row hfull⟩
  · exact ⟨.start, rfl, rfl, fun _ => checked_row hfull⟩
  · exact ⟨.tick, rfl, rfl, fun _ => checked_row hfull⟩
  · exact ⟨.sample (arg.getLsbD 0) (arg.getLsbD 1), rfl, rfl, fun _ => checked_row hlevels⟩
  · exact ⟨.wrrate (rateOfCode (arg.getLsbD 0)), rfl, rfl, fun _ => whenSplit_row hcode⟩
  · exact ⟨.wrdir (dirOfCode (arg.getLsbD 0)), rfl, rfl, fun _ => whenSplit_row hcode⟩
  · exact ⟨.portwr (portOperand 8 arg), rfl, rfl, fun _ => checked_row hport⟩

/-- A word of a row's operation code decodes exactly when the row selects it, to one operation of the row's mnemonic and
agent. -/
theorem decode_iff_selects {row : OpcodeRow} (h : row ∈ opcodeTable) (split : Bool)
    {w : EventWord Config.default.portW} (hop : opField 8 w = opField 8 row.pattern) :
    ∃ i, row.mnemonic = mnemonicOf i ∧ row.agent = agentOf i ∧
      ∀ j, decode { Config.default with arbSplit := split } w = .ok j ↔ row.selects split w = true ∧ i = j := by
  obtain ⟨i, hm, ha, hd⟩ := decodeOp_row h split (argField 8 w)
  rw [← hop] at hd
  refine ⟨i, hm, ha, fun j => ⟨fun hw => ?_, fun ⟨hsel, hj⟩ => ?_⟩⟩
  · obtain ⟨hz, hw⟩ := decode_eq_ok.mp hw
    obtain ⟨harg, hs, hj⟩ := (hd j).mp hw
    exact ⟨(selects_iff h split w).mpr ⟨hop, hz, harg, hs⟩, hj⟩
  · obtain ⟨-, hz, harg, hs⟩ := (selects_iff h split w).mp hsel
    exact decode_eq_ok.mpr ⟨hz, (hd j).mpr ⟨harg, hs, hj⟩⟩

/-- Settles O36: each row selects words of its own operation code alone, and of those exactly the words that decode. -/
theorem opcodeTableAgreesWithDecoder : Obligations.OpcodeTableAgreesWithDecoder := by
  refine ⟨?_, fun split w j hw => ?_, fun split w row hrow hsel => ?_⟩
  · refine opcodeTable_opField_distinct.imp_of_mem fun ha hb hne w ⟨hwa, hwb⟩ => hne ?_
    obtain ⟨hopa, -⟩ := (selects_iff ha true w).mp hwa
    obtain ⟨hopb, -⟩ := (selects_iff hb true w).mp hwb
    exact hopa.symm.trans hopb
  · obtain ⟨hop, -⟩ := decodeOp_ok_cases (decode_eq_ok.mp hw).2
    obtain ⟨row, hrow, hrop⟩ := exists_row_of_opField (opcode_lt j)
    obtain ⟨i, hm, ha, hd⟩ := decode_iff_selects hrow split (w := w) (hop.trans hrop.symm)
    obtain ⟨hsel, rfl⟩ := (hd j).mp hw
    exact ⟨row, hrow, hsel, hm, ha⟩
  · obtain ⟨hop, -⟩ := (selects_iff hrow split w).mp hsel
    obtain ⟨i, hm, -, hd⟩ := decode_iff_selects hrow split hop
    exact ⟨i, (hd i).mpr ⟨hsel, rfl⟩, hm⟩

end Sys2Proof

namespace Sys2Proof.Machine

/-! ## The phase lines along a run of ticks (`30_encoding.md` R62, `40_sequencer.md` R87) -/

theorem execAll_replicate_tick (n : Nat) (s : State) :
    execAll (List.replicate n .tick) s = .next ((afterOp .tick)^[n] s) := by
  induction n generalizing s with
  | zero => rfl
  | succ n ih => rw [List.replicate_succ, execAll_cons, ih, Function.iterate_succ_apply]

/-- `t` is the running state `s` after some ticks, `k` of which stepped and `j` of which came after the last of those:
what the next ticks do, and what the phase lines show once a tick has stepped. -/
structure TicksPast (s : State) (k j : Nat) (t : State) : Prop where
  bounded : CountBounded t
  running : t.run = true
  sameThresh : (thresh t).toNat = (thresh s).toNat
  sameDir : t.dir = s.dir
  count : t.tickcnt.toNat = j
  phase : t.phase = (stepPhase s.dir)^[k] s.phase
  lines : 1 ≤ k → LinesShowPhase t

theorem ticksPast_self {s : State} (hC : CountBounded s) (hr : s.run = true) :
    TicksPast s 0 s.tickcnt.toNat s :=
  ⟨hC, hr, rfl, rfl, rfl, rfl, nofun⟩

/-- A tick below the threshold counts. -/
theorem TicksPast.idle {s t : State} {k j : Nat} (h : TicksPast s k j t) (hj : j < (thresh s).toNat) :
    TicksPast s k (j + 1) (afterOp .tick t) := by
  have hx : expire t = false := by
    rw [Bool.eq_false_iff, Ne, expire_of_bounded h.bounded, h.sameThresh, h.count]; omega
  rw [exec_next_iff.mp (exec_tick_of_idle h.running hx)]
  exact ⟨countTick_bounded h.bounded hx, h.running, h.sameThresh, h.sameDir,
    (counted_of_bounded h.bounded).trans (congrArg (· + 1) h.count), h.phase, h.lines⟩

/-- A tick at the threshold or above it steps. -/
theorem TicksPast.step {s t : State} {k j : Nat} (h : TicksPast s k j t) (hj : (thresh s).toNat ≤ j) :
    TicksPast s (k + 1) 0 (afterOp .tick t) := by
  have hx : expire t = true := by
    rw [expire_of_bounded h.bounded, h.sameThresh, h.count]; exact hj
  have hphase : (emitStep t).phase = (stepPhase s.dir)^[k + 1] s.phase := by
    rw [emitStep_phase, h.sameDir, h.phase, Function.iterate_succ_apply']
  rw [exec_next_iff.mp (exec_tick_of_expire h.running hx)]
  exact ⟨emitStep_bounded h.bounded, h.running, h.sameThresh, h.sameDir, toNat_tickcnt_emitStep t, hphase,
    fun _ => linesShowPhase_emitStep (two_le_portW h.bounded.cfgWf)⟩

/-- Ticks up to the threshold only count. -/
theorem TicksPast.idle_iterate {s t : State} {k j : Nat} (h : TicksPast s k j t) (m : Nat)
    (hm : j + m ≤ (thresh s).toNat) : TicksPast s k (j + m) ((afterOp .tick)^[m] t) := by
  induction m with
  | zero => exact h
  | succ m ih =>
    rw [Function.iterate_succ_apply']
    exact (ih (by omega)).idle (by omega)

/-- The next transition comes when the count passes the threshold: after one tick where it has reached it already. -/
theorem TicksPast.step_iterate {s t : State} {k j : Nat} (h : TicksPast s k j t) :
    TicksPast s (k + 1) 0 ((afterOp .tick)^[(thresh s).toNat - j + 1] t) := by
  rw [Function.iterate_succ_apply']
  rcases Nat.le_total j (thresh s).toNat with hj | hj
  · exact (h.idle_iterate _ (by omega)).step (by omega)
  · rw [Nat.sub_eq_zero_of_le hj]
    exact h.step hj

/-- One transition per period (`40_sequencer.md` R86). -/
theorem TicksPast.periods {s t : State} {k : Nat} (h : TicksPast s k 0 t) (m : Nat) :
    TicksPast s (k + m) 0 ((afterOp .tick)^[m * ((thresh s).toNat + 1)] t) := by
  induction m with
  | zero => simpa using h
  | succ m ih =>
    rw [Nat.succ_mul, Nat.add_comm (m * _), Function.iterate_add_apply]
    exact ih.step_iterate

/-- The k-th transition and the ticks up to the next (`40_sequencer.md` R87). -/
theorem ticksPast_transition {s : State} (hC : CountBounded s) (hr : s.run = true) (m : Nat) {j : Nat}
    (hj : j ≤ (thresh s).toNat) :
    TicksPast s (1 + m) j
      ((afterOp .tick)^[j + m * ((thresh s).toNat + 1) + ((thresh s).toNat - s.tickcnt.toNat + 1)] s) := by
  have h := ((ticksPast_self hC hr).step_iterate.periods m).idle_iterate j (by rwa [Nat.zero_add])
  rwa [Nat.zero_add, Nat.zero_add, ← Function.iterate_add_apply, ← Function.iterate_add_apply] at h

/-- The four phase states in order, from 0: down for FORWARD, up for REVERSE. -/
theorem stepPhase_iterate_toNat (d : Dir) (k : Nat) :
    ((stepPhase d)^[k] 0#2).toNat = (if d = .forward then 4 - k % 4 else k) % 4 := by
  induction k with
  | zero => cases d <;> rfl
  | succ k ih =>
    rw [Function.iterate_succ_apply']
    cases d with
    | forward =>
      have hstep : ∀ p : Phase, (stepPhase .forward p).toNat = (p.toNat + 3) % 4 := by decide
      rw [hstep, ih]; simp only [if_true]; omega
    | reverse =>
      have hstep : ∀ p : Phase, (stepPhase .reverse p).toNat = (p.toNat + 1) % 4 := by decide
      rw [hstep, ih]; simp

theorem readReg_outLines_of_linesShowPhase {t : State} (h : LinesShowPhase t) :
    readReg t .outLines = t.phase.toNat :=
  (phaseLines_toNat _ _).symm.trans (congrArg BitVec.toNat h)

/-- Settles O18: with the subtraction cut off at 0, one formula gives the tick of the k-th transition for both ranges of the
count; from it on the lines show PHASE, which has moved k positions from 0. -/
theorem linesVisitFourStatesInOrder : Obligations.LinesVisitFourStatesInOrder := by
  intro k j n s hC hr hp hk hj hn
  obtain ⟨m, rfl⟩ : ∃ m, k = 1 + m := Nat.exists_eq_add_of_le hk
  have hn' : n = j + m * ((thresh s).toNat + 1) + ((thresh s).toNat - s.tickcnt.toNat + 1) := by
    rw [Nat.add_mul, Nat.one_mul, Nat.add_sub_cancel_left] at hn
    omega
  have h := ticksPast_transition hC hr m hj
  rw [← hn'] at h
  refine ⟨_, execAll_replicate_tick n s, ?_⟩
  rw [readReg_outLines_of_linesShowPhase (h.lines hk), h.phase, hp, stepPhase_iterate_toNat]

end Sys2Proof.Machine

/-! # The Sequencer (`40_sequencer.md` R80 to R92)

TICK as one operation, the number of phase transitions among consecutive ticks in closed form, and what follows from it:
the period, a change of threshold between ticks, the cycle of four phases and the step rate. -/

namespace Sys2Proof.Machine

/-! ## One TICK (`40_sequencer.md` R80, R83 to R85) -/

theorem expire_eq_false_iff (s : State) :
    expire s = false ↔ (s.tickcnt.toNat + 1) % 2 ^ s.cfg.wTick ≤ (thresh s).toNat := by
  rw [Bool.eq_false_iff, Ne, expire_iff, Nat.not_lt]

theorem stepPhase_eq_ite (d : Dir) (p : Phase) :
    stepPhase d p = if d = .forward then p - 1#2 else p + 1#2 := by
  cases d <;> rfl

theorem decode_tick_word (c : Config) : decode c (eventWord c.portW 0x3#4 0#c.portW) = .ok .tick := by
  simp [decodeOp, clearFrom]

/-- Settles O8: the gate of RUN, then the two arms by EXPIRE. -/
theorem tickCountsAndSteps : Obligations.TickCountsAndSteps := by
  refine ⟨decode_tick_word, fun s hr => exec_tick_of_held hr, fun s hr hx => ?_, fun s hr hx => ?_⟩
  · rw [← thresh_eq_ite, ← expire_iff] at hx
    rw [← stepPhase_eq_ite]
    exact ⟨_, fun k hk => getLsbD_writePhase _ k s.out _ hk, exec_tick_of_expire hr hx⟩
  · rw [← thresh_eq_ite, ← expire_eq_false_iff] at hx
    exact ⟨counted s, counted_toNat s, exec_tick_of_idle hr hx⟩

theorem eq_tick_of_sequencer {i : Instr} (h : agentOf i = .sequencer) : i = .tick := by
  cases i with
  | tick => rfl
  | nop | reset | start | sample | wrrate | wrdir | portwr => cases h

/-- PHASE and the phase lines have one owner (`10_state.md` R33). -/
theorem eq_sequencer_of_mayWrite {a : Agent} {r : Reg} (hr : r = .phase ∨ r = .outLines)
    (h : mayWrite a r = true) : a = .sequencer := by
  cases a with
  | sequencer => rfl
  | arbiter | environment => rcases hr with rfl | rfl <;> cases h

/-- PHASE and the phase lines change only on a stepping tick, or by RESET. -/
theorem steppingTick_of_changed {i : Instr} {s : State} {r : Reg} (hi : i ≠ .reset)
    (hr : r = .phase ∨ r = .outLines) (hne : readReg (afterOp i s) r ≠ readReg s r) :
    i = .tick ∧ s.run = true ∧ expire s = true := by
  have howns : mayWrite (agentOf i) r = true := by
    by_contra h
    exact hne (readReg_afterOp_of_not_owned hi (Bool.eq_false_iff.mpr h) s)
  have hseq : agentOf i = .sequencer := eq_sequencer_of_mayWrite hr howns
  obtain rfl : i = .tick := eq_tick_of_sequencer hseq
  cases hrun : s.run with
  | false => exact absurd (by rw [afterOp_of_held (by decide) hrun]) hne
  | true =>
    cases hx : expire s with
    | true => exact ⟨rfl, rfl, rfl⟩
    | false =>
      rw [exec_next_iff.mp (exec_tick_of_idle hrun hx)] at hne
      exact absurd (readReg_countTick (by rcases hr with rfl | rfl <;> decide) s) hne

theorem stepPhase_forward_toInt (p : Phase) : ((stepPhase .forward p).toNat : Int) = ((p.toNat : Int) - 1) % 4 := by
  revert p; decide

theorem stepPhase_reverse_toInt (p : Phase) : ((stepPhase .reverse p).toNat : Int) = ((p.toNat : Int) + 1) % 4 := by
  revert p; decide

/-- The low two bits of a wider counter count up modulo 4. -/
theorem setWidth_two_add_one {k : Nat} (hk : 2 ≤ k) (x : BitVec k) :
    (x + 1#k).setWidth 2 = x.setWidth 2 + 1#2 := by
  rw [BitVec.setWidth_add _ _ hk, BitVec.setWidth_ofNat_of_le hk]

/-- Counting down undoes counting up, in both counters. -/
theorem setWidth_two_sub_one {k : Nat} (hk : 2 ≤ k) (x : BitVec k) :
    (x - 1#k).setWidth 2 = x.setWidth 2 - 1#2 := by
  rw [eq_sub_iff_add_eq, ← setWidth_two_add_one hk, BitVec.sub_add_cancel]

/-- Settles O9: the stepping arm steps PHASE, and PHASE changes nowhere else. -/
theorem phaseStepsByOneModuloFour : Obligations.PhaseStepsByOneModuloFour := by
  refine ⟨fun s hr hx => ⟨_, exec_tick_of_expire hr hx, fun hd => ?_, fun hd => ?_⟩, fun i s t hi h hne => ?_,
    fun k x hk => ⟨setWidth_two_sub_one hk x, setWidth_two_add_one hk x⟩⟩
  · rw [emitStep_phase, hd, stepPhase_forward_toInt]
  · rw [emitStep_phase, hd, stepPhase_reverse_toInt]
  · obtain rfl := exec_next_iff.mp h
    obtain ⟨rfl, hr, hx⟩ := steppingTick_of_changed hi (.inl rfl) fun heq => hne (BitVec.eq_of_toNat_eq heq)
    rw [exec_next_iff.mp (exec_tick_of_expire hr hx)]
    exact ⟨rfl, hr, hx, rfl⟩

/-- Settles O10: the stepping arm writes the lines and keeps OUT's other bits, and the lines change nowhere else. -/
theorem linesWrittenExactlyOnSteppingTicks : Obligations.LinesWrittenExactlyOnSteppingTicks := by
  refine ⟨fun s hr hx hn => ⟨_, exec_tick_of_expire hr hx, rfl, writePhase_lines hn _ _, writePhase_upper _ _ _⟩,
    fun s hr hx => exec_tick_of_idle hr hx, fun i s t hi h hne => ?_⟩
  obtain rfl := exec_next_iff.mp h
  exact steppingTick_of_changed hi (.inr rfl) hne

/-! ## Counting phase transitions (`40_sequencer.md` R86, R87) -/

/-- The number of transitions in closed form, for both ranges of the count: one above the threshold acts as one at it. -/
theorem transitions_eq (n : Nat) {s : State} (hC : CountBounded s) (hr : s.run = true) :
    transitions n s = (n + min s.tickcnt.toNat (thresh s).toNat) / ((thresh s).toNat + 1) := by
  induction n generalizing s with
  | zero =>
    rw [Nat.zero_add, Nat.div_eq_of_lt (Nat.lt_succ_of_le (Nat.min_le_right _ _))]
    rfl
  | succ n ih =>
    rw [transitions_succ n hr]
    cases hx : expire s with
    | true =>
      have hreached : (thresh s).toNat ≤ s.tickcnt.toNat := (expire_of_bounded hC).mp hx
      rw [if_pos rfl, ih (emitStep_bounded hC) hr, toNat_tickcnt_emitStep, toNat_thresh_emitStep, Nat.zero_min,
        Nat.min_eq_right hreached, Nat.add_zero, Nat.add_right_comm, Nat.add_assoc,
        Nat.add_div_right n (Nat.succ_pos _), Nat.add_comm]
    | false =>
      have hbelow : s.tickcnt.toNat < (thresh s).toNat := by
        rw [← Nat.not_le, ← expire_of_bounded hC, hx]; decide
      have hcount : (countTick s).tickcnt.toNat = s.tickcnt.toNat + 1 := counted_of_bounded hC
      rw [if_neg (by decide), ih (countTick_bounded hC hx) hr, hcount, toNat_thresh_countTick,
        Nat.min_eq_left hbelow, Nat.min_eq_left hbelow.le, Nat.add_right_comm, Nat.add_assoc]

/-- One transition per period, from every count. -/
theorem transitions_periods (k : Nat) {s : State} (hC : CountBounded s) (hr : s.run = true) :
    transitions (k * ((thresh s).toNat + 1)) s = k := by
  have hrest : min s.tickcnt.toNat (thresh s).toNat < (thresh s).toNat + 1 :=
    Nat.lt_succ_of_le (Nat.min_le_right _ _)
  rw [transitions_eq _ hC hr, Nat.add_comm, Nat.add_mul_div_right _ _ (Nat.succ_pos _), Nat.div_eq_of_lt hrest,
    Nat.zero_add]

/-- Settles O12: one period, and n periods of one tick each. -/
theorem oneTransitionPerPeriod : Obligations.OneTransitionPerPeriod := by
  refine ⟨fun s hC hr => ?_, fun n s hC hr hT => ?_⟩
  · simpa using transitions_periods 1 hC hr
  · simpa [hT] using transitions_periods n hC hr

theorem transitions_of_le (n : Nat) {s : State} (hC : CountBounded s) (hr : s.run = true)
    (hc : s.tickcnt.toNat ≤ (thresh s).toNat) :
    transitions n s = (n + s.tickcnt.toNat) / ((thresh s).toNat + 1) := by
  rw [transitions_eq n hC hr, Nat.min_eq_left hc]

theorem transitions_of_lt {n : Nat} {s : State} (hC : CountBounded s) (hr : s.run = true)
    (hc : (thresh s).toNat < s.tickcnt.toNat) (hn : 1 ≤ n) :
    transitions n s = 1 + (n - 1) / ((thresh s).toNat + 1) := by
  have hshift : n + (thresh s).toNat = n - 1 + ((thresh s).toNat + 1) := by omega
  rw [transitions_eq n hC hr, Nat.min_eq_right hc.le, hshift, Nat.add_div_right _ (Nat.succ_pos _), Nat.add_comm]

/-- A quotient moves exactly at the multiples of the divisor. -/
theorem succ_div_ne_iff (a b : Nat) : (a + 1) / b ≠ a / b ↔ b ∣ a + 1 := by
  rw [Nat.succ_div]; split <;> simp [*]

/-- Settles O13: the closed form in its two ranges; the tick that completes a multiple of the period steps. -/
theorem exactTransitionCount : Obligations.ExactTransitionCount := by
  refine ⟨fun n s hC hr hc => transitions_of_le n hC hr hc, fun n s hC hr hc hn => transitions_of_lt hC hr hc hn,
    fun m s hC hr hc hm => ?_⟩
  obtain ⟨l, rfl⟩ := Nat.exists_eq_add_of_le' hm
  rw [Nat.add_sub_cancel, transitions_of_le _ hC hr hc, transitions_of_le _ hC hr hc, Nat.add_right_comm,
    succ_div_ne_iff, dvd_iff_exists_eq_mul_left]
  refine ⟨fun ⟨k, hk⟩ => ⟨k, ?_, by omega⟩, fun ⟨k, hk, hm⟩ => ⟨k, ?_⟩⟩
  · exact Nat.pos_of_ne_zero (by rintro rfl; omega)
  · have hperiod : (thresh s).toNat + 1 ≤ k * ((thresh s).toNat + 1) := Nat.le_mul_of_pos_left _ hk
    omega

/-- Settles O46: k periods make k transitions, and T + 1 cancels. -/
theorem stepRateIsTransitionsPerTick : Obligations.StepRateIsTransitionsPerTick := by
  intro k s f hC hr hf
  have hT : ((thresh s).toNat : Rat) + 1 ≠ 0 := Nat.cast_add_one_ne_zero _
  refine ⟨f / ((thresh s).toNat + 1), by rw [currentStepRate, hf]; rfl, rfl, ?_⟩
  rw [transitions_periods k hC hr]
  push_cast
  field_simp

/-! ## The state after n ticks -/

theorem transitions_succ_eq_add (n : Nat) (s : State) :
    transitions (n + 1) s = transitions 1 s + transitions n (afterOp .tick s) := by
  simp [transitions, exec_eq]

theorem transitions_add (m n : Nat) (s : State) :
    transitions (m + n) s = transitions m s + transitions n ((afterOp .tick)^[m] s) := by
  induction m generalizing s with
  | zero => simp [transitions]
  | succ m ih =>
    rw [Nat.add_right_comm, transitions_succ_eq_add, transitions_succ_eq_add m, ih, Function.iterate_succ_apply,
      Nat.add_assoc]

theorem transitions_one {s : State} (hr : s.run = true) : transitions 1 s = if expire s then 1 else 0 :=
  transitions_succ 0 hr

/-- After n ticks the number of steps is the number of transitions, so PHASE has moved by that many positions. -/
theorem ticksPast_iterate (n : Nat) {s : State} (hC : CountBounded s) (hr : s.run = true) :
    ∃ j, TicksPast s (transitions n s) j ((afterOp .tick)^[n] s) := by
  induction n with
  | zero => exact ⟨_, ticksPast_self hC hr⟩
  | succ n ih =>
    obtain ⟨j, h⟩ := ih
    have hx : expire ((afterOp .tick)^[n] s) = true ↔ (thresh s).toNat ≤ j := by
      rw [expire_of_bounded h.bounded, h.sameThresh, h.count]
    rw [transitions_add n 1, transitions_one h.running, Function.iterate_succ_apply']
    rcases Nat.lt_or_ge j (thresh s).toNat with hj | hj
    · rw [if_neg (by rw [hx]; omega)]
      exact ⟨_, h.idle hj⟩
    · rw [if_pos (hx.mpr hj)]
      exact ⟨_, h.step hj⟩

/-- After k periods PHASE has moved by k positions. -/
theorem ticksPast_periods (k : Nat) {s : State} (hC : CountBounded s) (hr : s.run = true) :
    ∃ j, TicksPast s k j ((afterOp .tick)^[k * ((thresh s).toNat + 1)] s) := by
  simpa only [transitions_periods k hC hr] using ticksPast_iterate (k * ((thresh s).toNat + 1)) hC hr

/-! ## A change of threshold between ticks (`40_sequencer.md` R88) -/

theorem countBounded_afterOp_arbiter {i : Instr} {s : State} (hi : agentOf i = .arbiter) (hC : CountBounded s) :
    CountBounded (afterOp i s) := by
  obtain ⟨r, d, h⟩ := afterOp_arbiter hi s
  rw [h]
  exact countBounded_of_kept hC s.phase r d s.run s.out

/-- An operation of the Arbiter that keeps RATE changes DIR at most, and the ticks that step do not depend on DIR. -/
theorem transitions_afterOp_arbiter {i : Instr} {s : State} (hi : agentOf i = .arbiter)
    (hrate : (afterOp i s).rate = s.rate) (n : Nat) : transitions n (afterOp i s) = transitions n s := by
  obtain ⟨r, d, h⟩ := afterOp_arbiter hi s
  obtain rfl : r = s.rate := by rw [h] at hrate; exact hrate
  rw [h]
  exact transitions_congr n s s.phase d s.out s.events s.draws

/-- The first transition comes when the count passes the threshold. -/
theorem transitions_to_first {s : State} (hC : CountBounded s) (hr : s.run = true) :
    transitions ((thresh s).toNat + 1 - min s.tickcnt.toNat (thresh s).toNat) s = 1 := by
  rw [transitions_eq _ hC hr, Nat.sub_add_cancel (by omega), Nat.div_self (Nat.succ_pos _)]

/-- The ticks before the first transition. -/
theorem transitions_before_first {s : State} (hC : CountBounded s) (hr : s.run = true)
    (hc : s.tickcnt.toNat ≤ (thresh s).toNat) : transitions ((thresh s).toNat - s.tickcnt.toNat) s = 0 := by
  rw [transitions_eq _ hC hr, Nat.min_eq_left hc, Nat.sub_add_cancel hc, Nat.div_eq_of_lt (Nat.lt_succ_self _)]

/-- Settles O15: the Arbiter leaves the count and RUN alone, so the closed form at the new threshold says when the first
transition comes. -/
theorem thresholdChangeActsAtNextTick : Obligations.ThresholdChangeActsAtNextTick := by
  refine ⟨fun i s hi hC hr => ?_, fun i s t hi h hrate n => ?_⟩
  · have hC' : CountBounded (afterOp i s) := countBounded_afterOp_arbiter hi hC
    obtain ⟨r, d, h⟩ := afterOp_arbiter hi s
    have hr' : (afterOp i s).run = true := by rw [h]; exact hr
    have hcount : (afterOp i s).tickcnt.toNat = s.tickcnt.toNat := by rw [h]
    have hphase : (afterOp i s).phase = s.phase := by rw [h]
    have hfirst := transitions_to_first hC' hr'
    obtain ⟨_, hu⟩ := ticksPast_iterate
      ((thresh (afterOp i s)).toNat + 1 - min (afterOp i s).tickcnt.toNat (thresh (afterOp i s)).toNat) hC' hr'
    refine ⟨_, exec_eq i s, hcount, fun hle => ?_, fun hlt => ⟨transitions_before_first hC' hr' hlt.le, ?_⟩,
      _, execAll_replicate_tick _ _, ?_⟩
    · rwa [Nat.min_eq_right hle, Nat.add_sub_cancel_left] at hfirst
    · rwa [Nat.min_eq_left hlt.le] at hfirst
    · rw [hu.phase, hfirst, hphase, Function.iterate_one]
  · obtain rfl := exec_next_iff.mp h
    exact transitions_afterOp_arbiter hi hrate n

/-! ## The excluded threshold (`40_sequencer.md` R89) -/

/-- No count of `W_TICK` bits exceeds `2^W_TICK - 1`. -/
theorem expire_of_excluded {s : State} (hT : (thresh s).toNat = 2 ^ s.cfg.wTick - 1) : expire s = false := by
  rw [expire_eq_false_iff, hT]
  exact Nat.le_sub_one_of_lt (Nat.mod_lt _ (Nat.two_pow_pos _))

theorem transitions_of_excluded (n : Nat) {s : State} (hT : (thresh s).toNat = 2 ^ s.cfg.wTick - 1) :
    transitions n s = 0 := by
  cases hr : s.run with
  | false => exact transitions_of_held n hr
  | true =>
    induction n generalizing s with
    | zero => rfl
    | succ n ih =>
      rw [transitions_succ n hr, expire_of_excluded hT]
      exact ih (s := countTick s) hT hr

/-- The ticks count around, and nothing else changes. -/
theorem iterate_tick_of_excluded (n : Nat) {s : State} (hr : s.run = true)
    (hT : (thresh s).toNat = 2 ^ s.cfg.wTick - 1) :
    (afterOp .tick)^[n] s = { s with tickcnt := s.tickcnt + BitVec.ofNat _ n } := by
  induction n with
  | zero => rw [BitVec.add_zero]; rfl
  | succ n ih =>
    have hx : expire { s with tickcnt := s.tickcnt + BitVec.ofNat _ n } = false := expire_of_excluded hT
    rw [Function.iterate_succ_apply', ih, exec_next_iff.mp (exec_tick_of_idle (by exact hr) hx), countTick, counted,
      BitVec.add_assoc, BitVec.ofNat_add]

theorem not_wf_of_excluded {s : State} (hT : (thresh s).toNat = 2 ^ s.cfg.wTick - 1) : s.cfg.wf = false := by
  rw [Bool.eq_false_iff]
  intro hw
  have hlt := max_threshold_lt hw
  have hle := thresh_le_max s
  omega

theorem step_of_not_wf {s : State} (hw : s.cfg.wf = false) : step s = .refused .badConfiguration := by
  simp [step, fetch, hw]

/-- Settles O16: the compare is never true, so every tick counts. -/
theorem excludedThresholdNeverSteps : Obligations.ExcludedThresholdNeverSteps := by
  refine ⟨fun n s hT => transitions_of_excluded n hT, fun n s hr hT => ?_,
    fun s hT => step_of_not_wf (not_wf_of_excluded hT)⟩
  refine ⟨s.tickcnt + BitVec.ofNat _ n, ?_, ?_⟩
  · rw [BitVec.toNat_add, BitVec.toNat_ofNat, Nat.add_mod_mod]
  · rw [execAll_replicate_tick, iterate_tick_of_excluded n hr hT]

/-! ## The cycle and the way back (`40_sequencer.md` R92) -/

theorem stepPhase_iterate_four (d : Dir) (p : Phase) : (stepPhase d)^[4] p = p := by
  revert p; cases d <;> decide

theorem stepPhase_iterate_ne {k : Nat} (hlt : k < 4) (hpos : 0 < k) (d : Dir) (p : Phase) :
    (stepPhase d)^[k] p ≠ p := by
  revert k p; cases d <;> decide

theorem stepPhase_leftInverse {d d' : Dir} (h : d' ≠ d) : Function.LeftInverse (stepPhase d') (stepPhase d) := by
  intro p
  cases d with
  | forward =>
    cases d' with
    | forward => exact absurd rfl h
    | reverse => exact BitVec.sub_add_cancel p 1#2
  | reverse =>
    cases d' with
    | forward => exact BitVec.add_sub_cancel p 1#2
    | reverse => exact absurd rfl h

theorem execAll_singleton (i : Instr) (s : State) : execAll [i] s = exec i s := by
  rw [execAll_cons, exec_eq, execAll]

theorem execAll_append_of_next {is : List Instr} {s t : State} (h : execAll is s = .next t) (js : List Instr) :
    execAll (is ++ js) s = execAll js t := by
  rw [execAll_eq] at h
  injection h with h
  rw [execAll_append, h]

theorem countBounded_commitDir {s : State} (hC : CountBounded s) (d : Dir) : CountBounded (commitDir d s) :=
  ⟨hC.cfgWf, hC.bounded⟩

/-- Settles O17: k periods move PHASE by k positions, from the count the first run leaves as well as from the one it
starts at; opposite steps undo each other. -/
theorem fourStepCycleAndReversal : Obligations.FourStepCycleAndReversal := by
  refine ⟨fun s hC hr => ?_, fun k s hC hr hpos hlt => ?_, fun n d s hC hr hd => ?_⟩
  · obtain ⟨_, h⟩ := ticksPast_periods 4 hC hr
    exact ⟨_, execAll_replicate_tick _ s, h.phase.trans (stepPhase_iterate_four _ _)⟩
  · obtain ⟨_, h⟩ := ticksPast_periods k hC hr
    exact ⟨_, execAll_replicate_tick _ s, h.phase.trans_ne (stepPhase_iterate_ne hlt hpos _ _)⟩
  · obtain ⟨_, hout⟩ := ticksPast_periods n hC hr
    obtain ⟨_, hback⟩ := ticksPast_periods n (countBounded_commitDir hout.bounded d) hout.running
    rw [toNat_thresh_commitDir, hout.sameThresh] at hback
    have hturn := (execAll_append_of_next (execAll_replicate_tick (n * ((thresh s).toNat + 1)) s) [.wrdir d]).trans
      ((execAll_singleton _ _).trans (exec_wrdir_of_run hout.running d))
    refine ⟨_, (execAll_append_of_next hturn _).trans (execAll_replicate_tick _ _), ?_⟩
    rw [hback.phase, commitDir_phase, commitDir_dir, hout.phase]
    exact (stepPhase_leftInverse hd).iterate n s.phase

end Sys2Proof.Machine

/-! # The Arbiter (`41_arbiter.md` R100 to R103)

SAMPLE: its word, the pair and the threshold it commits, what of the state it depends on, and its repetition. -/

namespace Sys2Proof.Machine

/-! ## The word of SAMPLE, and SAMPLE while RUN = 0 (R100) -/

/-- The must-be-zero bits of an operand field, one by one. -/
theorem clearFrom_of_getLsbD {n k : Nat} {arg : BitVec n} (h : ∀ j, k ≤ j → arg.getLsbD j = false) :
    clearFrom n k arg = true :=
  decide_eq_true (Nat.lt_pow_two_of_testBit _ h)

theorem decode_sample_word {c : Config} {arg : BitVec c.portW} (h : ∀ k, 2 ≤ k → arg.getLsbD k = false) :
    decode c (eventWord c.portW 0x4#4 arg) = .ok (.sample (arg.getLsbD 0) (arg.getLsbD 1)) := by
  rw [decode_eventWord]
  exact checked_eq_ok.mpr ⟨clearFrom_of_getLsbD h, rfl⟩

theorem exec_sample_of_held {s : State} (h : s.run = false) (ffN frN : Bool) : exec (.sample ffN frN) s = .next s :=
  whenRunning_of_held _ h

/-! ## The control law (R100, R101) -/

/-- Forward wins: an asserted fast-forward line hides the fast-reverse line. -/
theorem policy_ff_asserted (frN : Bool) : policy false frN = (.fast, .forward) := rfl

theorem policy_fr_asserted : policy true false = (.fast, .reverse) := rfl

theorem policy_released : policy true true = (.normal, .forward) := rfl

/-- A running SAMPLE, by the row of the control law its levels select. -/
theorem exec_sample_of_policy {s : State} {ffN frN : Bool} {r : Rate} {d : Dir} (hr : s.run = true)
    (h : policy ffN frN = (r, d)) : exec (.sample ffN frN) s = .next { s with rate := r, dir := d } := by
  rw [exec_sample_of_run hr, h, commitPair]

/-- The normal threshold is selected exactly when both lines are released. -/
theorem threshold_policy (c : Config) (ffN frN : Bool) :
    threshold c (policy ffN frN).1 = if ffN = true ∧ frN = true then c.tNormal else c.tFast := by
  cases ffN with
  | false => rfl
  | true => cases frN <;> rfl

@[simp] theorem toNat_thresh_commitPair (r : Rate) (d : Dir) (s : State) :
    (thresh (commitPair r d s)).toNat = (threshold s.cfg r).toNat := rfl

/-- Settles O20: the gate of RUN, then the control law row by row. -/
theorem sampleCommitsPolicyPair : Obligations.SampleCommitsPolicyPair := by
  refine ⟨fun c arg => decode_sample_word, fun ffN frN s hr => exec_sample_of_held hr ffN frN, fun s hr => ?_,
    fun ffN frN s t hr h => ?_, fun a b s => ?_⟩
  · have hforward : ∀ frN, exec (.sample false frN) s = .next { s with rate := .fast, dir := .forward } :=
      fun frN => exec_sample_of_policy hr (policy_ff_asserted frN)
    exact ⟨hforward false, hforward true, exec_sample_of_policy hr policy_fr_asserted,
      exec_sample_of_policy hr policy_released⟩
  · obtain rfl : commitPair (policy ffN frN).1 (policy ffN frN).2 s = t :=
      Host.Outcome.next.inj ((exec_sample_of_run hr ffN frN).symm.trans h)
    rw [toNat_thresh_commitPair, threshold_policy]
  · rw [exec_eq, exec_eq, afterOp, afterOp, policy_ff_asserted, policy_ff_asserted]

/-! ## No memory of the state before (R102, R103) -/

/-- Settles O21: a running SAMPLE commits the pair of its levels, whatever the state. -/
theorem sampleIsMemoryless : Obligations.SampleIsMemoryless := by
  refine ⟨fun ffN frN s s' hr hr' => ?_, fun s hr => ?_, fun ffN frN s hr => ?_⟩
  · exact ⟨_, _, exec_sample_of_run hr ffN frN, exec_sample_of_run hr' ffN frN, rfl, rfl⟩
  · exact ⟨_, exec_sample_of_policy hr policy_released, rfl, rfl⟩
  · rw [execAll_cons, exec_next_iff.mp (exec_sample_of_run hr ffN frN), execAll_singleton, commitPair]

/-- Settles O22: a SAMPLE overwrites any Arbiter operation before it, itself among them. -/
theorem sampleIsIdempotent : Obligations.SampleIsIdempotent := by
  refine ⟨fun ffN frN s => ?_, fun ffN frN s hr => ⟨_, exec_sample_of_run hr ffN frN, rfl⟩⟩
  rw [execAll_cons, execAll_singleton, execAll_singleton, exec_eq, exec_eq, afterOp_sample_afterOp rfl]

end Sys2Proof.Machine

/-! # No synchronous exception (`60_exceptions.md` R120)

The two other things a step can meet under a well-formed configuration, beside a valid word (`step_of_decode`): no
pending event, and an invalid word. -/

namespace Sys2Proof.Machine

theorem step_of_no_event {s : State} (hw : s.cfg.wf = true) (he : s.events = []) : step s = .next s := by
  simp [step, fetch, hw, he]

theorem step_of_invalid {s : State} {ev : EventWord s.cfg.portW} {rest : List (EventWord s.cfg.portW)} {why : Invalid}
    (hw : s.cfg.wf = true) (he : s.events = ev :: rest) (hd : decode s.cfg ev = .error why) :
    step s = .refused (.invalidEvent why) := by
  simp [step, fetch, hw, he, hd]

/-- Everything `step` can do when it refuses under a well-formed configuration. -/
theorem step_refused_of_wf {s : State} {r : Refusal} (hw : s.cfg.wf = true) (h : step s = .refused r) :
    ∃ ev rest why, s.events = ev :: rest ∧ decode s.cfg ev = .error why ∧ r = .invalidEvent why := by
  cases he : s.events with
  | nil => exact nomatch (step_of_no_event hw he).symm.trans h
  | cons ev rest =>
    cases hd : decode s.cfg ev with
    | ok i => exact nomatch (exec_eq i _).symm.trans ((step_of_decode hw he hd).symm.trans h)
    | error why =>
      exact ⟨ev, rest, why, rfl, hd, Host.Outcome.refused.inj (h.symm.trans (step_of_invalid hw he hd))⟩

/-- Settles O29: `exec` answers `afterOp`, there is no fault to answer, and a refusing step met an invalid word. -/
theorem everyOperationCompletes : Obligations.EveryOperationCompletes := by
  refine ⟨fun i s => ⟨afterOp i s, exec_eq i s⟩, fun s f => ?_, fun s r => step_refused_of_wf⟩
  cases f

end Sys2Proof.Machine

/-! # The first behaviour after boot (`70_reset_and_hazards.md` R143)

RESET and START leave a running state with count 0, PHASE 0 and the pair (NORMAL, FORWARD); the ticks after them are
those of any running state. -/

namespace Sys2Proof.Machine

/-- A TICK may not write RATE (`10_state.md` R33). -/
@[simp] theorem afterOp_tick_rate (s : State) : (afterOp .tick s).rate = s.rate :=
  rateCode_toNat_injective (readReg_afterOp_of_not_owned (i := .tick) (r := .rate) nofun rfl s)

theorem iterate_tick_rate (n : Nat) (s : State) : ((afterOp .tick)^[n] s).rate = s.rate := by
  induction n with
  | zero => rfl
  | succ n ih => rw [Function.iterate_succ_apply', afterOp_tick_rate, ih]

theorem execAll_reset_start_ticks (n : Nat) (s : State) :
    execAll ([.reset, .start] ++ List.replicate n .tick) s =
      .next ((afterOp .tick)^[n] (enable (resetRegisters s))) :=
  (execAll_append _ _ s).trans (execAll_replicate_tick n _)

theorem toNat_thresh_enable_resetRegisters (s : State) :
    (thresh (enable (resetRegisters s))).toNat = s.cfg.tNormal.toNat := rfl

theorem ticksPast_enable_resetRegisters {s : State} (hw : s.cfg.wf = true) :
    TicksPast (enable (resetRegisters s)) 0 0 (enable (resetRegisters s)) := by
  have hC : CountBounded (enable (resetRegisters s)) :=
    countBounded_of_kept (inv_resetRegisters hw).toCountBounded _ _ _ _ _
  simpa using ticksPast_self hC (enable_run _)

/-- Settles O19: the first T_NORMAL ticks after START only count, and the next one steps FORWARD from 0. -/
theorem firstTransitionAfterBoot : Obligations.FirstTransitionAfterBoot := by
  intro s hw
  have hboot := ticksPast_enable_resetRegisters hw
  refine ⟨fun k hk => ⟨_, execAll_reset_start_ticks k s, ?_⟩, _, execAll_reset_start_ticks _ s, ?_⟩
  · have h := hboot.idle_iterate k (by rwa [toNat_thresh_enable_resetRegisters, Nat.zero_add])
    exact ⟨h.phase, h.count.trans (Nat.zero_add k), iterate_tick_rate k _, h.sameDir⟩
  · have h := hboot.step_iterate
    rw [toNat_thresh_enable_resetRegisters, Nat.sub_zero] at h
    have hlines := readReg_outLines_of_linesShowPhase (h.lines le_rfl)
    exact ⟨h.phase, hlines.trans (congrArg BitVec.toNat h.phase), h.count⟩

end Sys2Proof.Machine

/-! # The environment (`42_control.md` R110 to R114)

NOP, RESET, START and PORTWR, their words, and the order of operations that write different registers. -/

namespace Sys2Proof.Machine

/-! ## Words without an operand -/

/-- The words of the four rows without an operand decode under every configuration, ill-formed ones among them. -/
theorem decode_encode_of_no_operand (c : Config) {i : Instr} (hi : i ∈ [.nop, .reset, .start, .tick]) :
    decode c (encode c i) = .ok i := by
  fin_cases hi <;> simp [encode, operandArg, opcode, decodeOp, clearFrom]

/-! ## One operation each -/

theorem execAll_filter_ne_nop (is : List Instr) (s : State) :
    execAll (is.filter fun i => decide (i ≠ .nop)) s = execAll is s := by
  induction is generalizing s with
  | nil => rfl
  | cons i is ih =>
    by_cases hi : i = .nop
    · rw [List.filter_cons_of_neg (by simp [hi]), ih, execAll_cons, hi, afterOp]
    · rw [List.filter_cons_of_pos (by simp [hi]), execAll_cons, execAll_cons, ih]

/-- Settles O1: NOP is the identity, so dropping one keeps the outcome, by induction on the run. -/
theorem nopChangesNothing : Obligations.NopChangesNothing :=
  ⟨fun _ => rfl, fun c => decode_encode_of_no_operand c (i := .nop) (by simp),
    fun is s => (execAll_filter_ne_nop is s).symm⟩

/-- Settles O2: RESET answers `resetRegisters`, whose OUT is the next draw. -/
theorem resetLoadsResetValues : Obligations.ResetLoadsResetValues := by
  refine ⟨fun s => ⟨unspecOut s, rfl⟩, fun s t h => ?_,
    fun c => decode_encode_of_no_operand c (i := .reset) (by simp)⟩
  obtain rfl := exec_next_iff.mp h
  rfl

theorem enable_of_run {s : State} (h : s.run = true) : enable s = s := by
  rw [enable, ← h]

/-- Settles O3: START answers `enable`, the identity where RUN is 1 already. -/
theorem startSetsRunAlone : Obligations.StartSetsRunAlone :=
  ⟨fun _ => rfl, fun _ hr => exec_next_iff.mpr (enable_of_run hr),
    fun c => decode_encode_of_no_operand c (i := .start) (by simp)⟩

/-- The must-be-zero bits of PORTWR's operand field, one by one. -/
theorem lowClear_iff {n : Nat} {arg : BitVec n} :
    lowClear n arg = true ↔ arg.getLsbD 0 = false ∧ arg.getLsbD 1 = false := by
  rw [getLsbD_zero_eq, getLsbD_one_eq, lowClear, beq_iff_eq, decide_eq_false_iff_not, decide_eq_false_iff_not]
  omega

theorem portOperand_eq_shift (n : Nat) (arg : BitVec n) : portOperand n arg = (arg >>> 2).toNat := by
  rw [portOperand, BitVec.toNat_ushiftRight, Nat.shiftRight_eq_div_pow]

/-- Settles O4: the port write bit by bit, and the operand as a shift of its field. -/
theorem portwrWritesUpperBitsAlone : Obligations.PortwrWritesUpperBitsAlone := by
  refine ⟨fun v s => ⟨_, fun k hk => getLsbD_writeUpper s.cfg.portW k s.out v hk, rfl⟩, fun c arg h0 h1 => ?_⟩
  refine ⟨portOperand c.portW arg, ?_, portOperand_eq_shift c.portW arg⟩
  rw [decode_eventWord]
  exact checked_eq_ok.mpr ⟨lowClear_iff.mpr ⟨h0, h1⟩, rfl⟩

/-! ## Operations in either order (R114) -/

theorem execAll_pair (i j : Instr) (s : State) : execAll [i, j] s = .next (afterOp j (afterOp i s)) :=
  execAll_eq [i, j] s

/-- The step and the port write meet in OUT, where they write disjoint bits. -/
theorem emitStep_writePort (v : Nat) (s : State) : emitStep (writePort v s) = writePort v (emitStep s) := by
  simp only [emitStep, writePort, writeUpper_writePhase]

/-- PORTWR commutes with every operation but RESET and itself: the others leave OUT's upper bits, and none reads OUT. -/
theorem afterOp_writePort {i : Instr} (hreset : i ≠ .reset) (hport : ∀ v, i ≠ .portwr v) (v : Nat) (s : State) :
    afterOp i (writePort v s) = writePort v (afterOp i s) := by
  cases i with
  | nop | start => rfl
  | reset => exact absurd rfl hreset
  | portwr w => exact absurd rfl (hport w)
  | sample | wrrate | wrdir => rw [afterOp, afterOp, apply_ite (writePort v)]; rfl
  | tick =>
    rw [afterOp, afterOp, apply_ite (writePort v), apply_ite (writePort v), ← emitStep_writePort]
    rfl

/-- Settles O5: the order of two operations is that of their updates. -/
theorem portwrAndNopCommute : Obligations.PortwrAndNopCommute := by
  refine ⟨fun v i s hreset hport => ?_, fun i s => ?_⟩
  · rw [execAll_pair, execAll_pair]
    exact congrArg Host.Outcome.next (afterOp_writePort hreset hport v s)
  · rw [execAll_pair, execAll_pair, afterOp, afterOp]

/-- An idle tick writes TICKCNT, which no operation of the Arbiter reads or writes. -/
theorem afterOp_arbiter_countTick {i : Instr} (hi : agentOf i = .arbiter) (s : State) :
    afterOp i (countTick s) = countTick (afterOp i s) := by
  cases i with
  | nop | reset | start | tick | portwr => cases hi
  | sample | wrrate | wrdir => rw [afterOp, afterOp, apply_ite countTick]; rfl

/-- While RATE is kept the Arbiter does not move EXPIRE. -/
theorem expire_afterOp_arbiter {i : Instr} {s : State} (hi : agentOf i = .arbiter)
    (hrate : (afterOp i s).rate = s.rate) : expire (afterOp i s) = expire s := by
  obtain ⟨r, d, h⟩ := afterOp_arbiter hi s
  obtain rfl : r = s.rate := by rw [h] at hrate; exact hrate
  rw [h]
  rfl

theorem afterOp_tick_of_idle {s : State} (hr : s.run = true) (hx : expire s = false) :
    afterOp .tick s = countTick s :=
  exec_next_iff.mp (exec_tick_of_idle hr hx)

/-- Settles O6: where RUN is 1 the tick counts on either side of the operation, and where it is 0 nothing happens. -/
theorem arbiterCommutesWithIdleTick : Obligations.ArbiterCommutesWithIdleTick := by
  intro i s t hi h hrate hx
  obtain rfl := exec_next_iff.mp h
  rw [execAll_pair, execAll_pair]
  cases hr : s.run with
  | false =>
    rw [afterOp_of_held (by simp [hi]) hr, afterOp_of_held (i := .tick) (by decide) hr,
      afterOp_of_held (by simp [hi]) hr]
  | true =>
    have hr' : (afterOp i s).run = true := by
      obtain ⟨r, d, h⟩ := afterOp_arbiter hi s
      rw [h]; exact hr
    rw [afterOp_tick_of_idle hr hx, afterOp_tick_of_idle hr' ((expire_afterOp_arbiter hi hrate).trans hx),
      afterOp_arbiter_countTick hi]

end Sys2Proof.Machine

/-! # Ticks in closed form (`40_sequencer.md` R80 to R92)

EXPIRE as the spec writes it, and the whole state after n ticks. -/

namespace Sys2Proof.Machine

/-- Settles O7: THRESH written out by RATE. -/
theorem expireComparesIncrementedCount : Obligations.ExpireComparesIncrementedCount := by
  intro s
  rw [expire_iff, thresh_eq_ite]

/-- The two cases of the closed form, as one run: q steps, then r ticks that only count. -/
theorem ticksPast_closedForm {n q r : Nat} {s : State} (hC : CountBounded s) (hr : s.run = true)
    (h : (s.tickcnt.toNat ≤ (thresh s).toNat ∧ q = (n + s.tickcnt.toNat) / ((thresh s).toNat + 1) ∧
        r = (n + s.tickcnt.toNat) % ((thresh s).toNat + 1)) ∨
      ((thresh s).toNat < s.tickcnt.toNat ∧ 1 ≤ n ∧ q = 1 + (n - 1) / ((thresh s).toNat + 1) ∧
        r = (n - 1) % ((thresh s).toNat + 1))) :
    TicksPast s q r ((afterOp .tick)^[n] s) := by
  have hle : r ≤ (thresh s).toNat := by
    rcases h with ⟨-, -, rfl⟩ | ⟨-, -, -, rfl⟩ <;> exact Nat.le_of_lt_succ (Nat.mod_lt _ (Nat.succ_pos _))
  rcases h with ⟨hc, hq, hrem⟩ | ⟨hc, hn, hq, hrem⟩
  · have hsplit := Nat.div_add_mod' (n + s.tickcnt.toNat) ((thresh s).toNat + 1)
    rw [← hq, ← hrem] at hsplit
    cases q with
    | zero =>
      rw [Nat.zero_mul, Nat.zero_add, Nat.add_comm n] at hsplit
      rw [hsplit] at hle ⊢
      exact (ticksPast_self hC hr).idle_iterate n hle
    | succ m =>
      rw [Nat.succ_mul] at hsplit
      have hcount : n = r + m * ((thresh s).toNat + 1) + ((thresh s).toNat - s.tickcnt.toNat + 1) := by omega
      rw [hcount, Nat.add_comm m]
      exact ticksPast_transition hC hr m hle
  · have hsplit := Nat.div_add_mod' (n - 1) ((thresh s).toNat + 1)
    rw [← hrem] at hsplit
    have hcount : n = r + (n - 1) / ((thresh s).toNat + 1) * ((thresh s).toNat + 1) +
        ((thresh s).toNat - s.tickcnt.toNat + 1) := by omega
    have hpast := ticksPast_transition hC hr ((n - 1) / ((thresh s).toNat + 1)) hle
    rwa [← hcount, ← hq] at hpast

/-- q phase steps move PHASE by q positions modulo 4. -/
theorem stepPhase_iterate_toInt (d : Dir) (q : Nat) (p : Phase) :
    (((stepPhase d)^[q] p).toNat : Int) =
      (if d = .forward then (p.toNat : Int) - q else (p.toNat : Int) + q) % 4 := by
  induction q with
  | zero => revert p; cases d <;> decide
  | succ q ih =>
    rw [Function.iterate_succ_apply']
    cases d with
    | forward => rw [stepPhase_forward_toInt, ih, if_pos rfl, if_pos rfl]; omega
    | reverse => rw [stepPhase_reverse_toInt, ih, if_neg nofun, if_neg nofun]; omega

/-- `t` is `s` but for TICKCNT, PHASE and the phase lines, OUT having been written in `k` of the ticks between. -/
def TickFrame (k : Nat) (s t : State) : Prop :=
  ∃ (c : BitVec s.cfg.wTick) (p : Phase) (o : BitVec s.cfg.portW),
    t = { s with tickcnt := c, phase := p, out := o } ∧ o.toNat / 4 = readReg s .outUpper ∧ (k = 0 → o = s.out)

theorem tickFrame_self (k : Nat) (s : State) : TickFrame k s s :=
  ⟨s.tickcnt, s.phase, s.out, rfl, rfl, fun _ => rfl⟩

theorem TickFrame.trans {k l : Nat} {s t u : State} (hst : TickFrame k s t) (htu : TickFrame l t u) :
    TickFrame (k + l) s u := by
  obtain ⟨c, p, o, rfl, hup, hout⟩ := hst
  obtain ⟨c', p', o', rfl, hup', hout'⟩ := htu
  exact ⟨c', p', o', rfl, hup'.trans hup, fun h => (hout' (by omega)).trans (hout (by omega))⟩

theorem tickFrame_afterOp (s : State) : TickFrame (transitions 1 s) s (afterOp .tick s) := by
  cases hr : s.run with
  | false =>
    rw [afterOp_of_held (by decide) hr]
    exact tickFrame_self _ s
  | true =>
    rw [transitions_one hr]
    cases hx : expire s with
    | true =>
      rw [exec_next_iff.mp (exec_tick_of_expire hr hx)]
      exact ⟨_, _, _, rfl, writePhase_upper _ _ _, nofun⟩
    | false =>
      rw [exec_next_iff.mp (exec_tick_of_idle hr hx)]
      exact ⟨_, _, _, rfl, rfl, fun _ => rfl⟩

theorem tickFrame_iterate (n : Nat) (s : State) : TickFrame (transitions n s) s ((afterOp .tick)^[n] s) := by
  induction n generalizing s with
  | zero => exact tickFrame_self _ s
  | succ n ih =>
    rw [transitions_succ_eq_add, Function.iterate_succ_apply]
    exact (tickFrame_afterOp s).trans (ih _)

/-- Settles O14: the count, PHASE and the lines by the steps passed, OUT's other bits and the rest by the frame. -/
theorem ticksInClosedForm : Obligations.TicksInClosedForm := by
  intro n q r s hC hr h
  have hpast := ticksPast_closedForm hC hr h
  have hq : transitions n s = q := by
    rcases h with ⟨hc, hq, -⟩ | ⟨hc, hn, hq, -⟩
    · rw [transitions_of_le n hC hr hc, hq]
    · rw [transitions_of_lt hC hr hc hn, hq]
  obtain ⟨c, p, o, hstate, hupper, hout⟩ := tickFrame_iterate n s
  rw [hstate] at hpast
  refine ⟨c, p, o, by rw [execAll_replicate_tick, hstate], hpast.count, ?_, hupper, hq ▸ hout, fun hq1 => ?_⟩
  · rw [show p = (stepPhase s.dir)^[q] s.phase from hpast.phase, stepPhase_iterate_toInt]
  · exact readReg_outLines_of_linesShowPhase (hpast.lines hq1)

end Sys2Proof.Machine

/-! # The split operations, RUN, and the step (`41_arbiter.md` R104 to R108, `10_state.md` R26, `00_scope.md` R7) -/

namespace Sys2Proof.Machine

/-! ## WRRATE and WRDIR (`41_arbiter.md` R104, R105) -/

theorem decode_wrrate_word {c : Config} {arg : BitVec c.portW} (h : ∀ k, 1 ≤ k → arg.getLsbD k = false) :
    decode c (eventWord c.portW 0x5#4 arg) =
      if c.arbSplit then .ok (.wrrate (rateOfCode (arg.getLsbD 0))) else .error .notAdmitted := by
  have hrow : decodeOp c 0x5#4 arg =
      whenSplit c (checked (clearFrom c.portW 1 arg) (.wrrate (rateOfCode (arg.getLsbD 0)))) := rfl
  rw [decode_eventWord, hrow, clearFrom_of_getLsbD h, whenSplit, checked, if_pos rfl]

theorem decode_wrdir_word {c : Config} {arg : BitVec c.portW} (h : ∀ k, 1 ≤ k → arg.getLsbD k = false) :
    decode c (eventWord c.portW 0x6#4 arg) =
      if c.arbSplit then .ok (.wrdir (dirOfCode (arg.getLsbD 0))) else .error .notAdmitted := by
  have hrow : decodeOp c 0x6#4 arg =
      whenSplit c (checked (clearFrom c.portW 1 arg) (.wrdir (dirOfCode (arg.getLsbD 0)))) := rfl
  rw [decode_eventWord, hrow, clearFrom_of_getLsbD h, whenSplit, checked, if_pos rfl]

/-- Settles O24: the gate of RUN for each write, and the two rows that `ARB_SPLIT` admits. -/
theorem splitWritesCommitOneField : Obligations.SplitWritesCommitOneField :=
  ⟨fun r _ hr => exec_wrrate_of_run hr r, fun d _ hr => exec_wrdir_of_run hr d,
    fun _ _ hr => whenRunning_of_held _ hr, fun _ _ hr => whenRunning_of_held _ hr,
    fun _ _ => decode_wrrate_word, fun _ _ => decode_wrdir_word⟩

/-- Both split writes, in either order, commit the pair. -/
theorem afterOp_split_writes (r : Rate) (d : Dir) (s : State) :
    afterOp (.wrdir d) (afterOp (.wrrate r) s) = (if s.run then commitPair r d s else s) ∧
      afterOp (.wrrate r) (afterOp (.wrdir d) s) = (if s.run then commitPair r d s else s) := by
  cases hr : s.run with
  | false =>
    have hrate : afterOp (.wrrate r) s = s := afterOp_of_held (by simp [agentOf]) hr
    have hdir : afterOp (.wrdir d) s = s := afterOp_of_held (by simp [agentOf]) hr
    simp [hrate, hdir]
  | true =>
    have hrate : ∀ t : State, t.run = true → afterOp (.wrrate r) t = commitRate r t :=
      fun t ht => exec_next_iff.mp (exec_wrrate_of_run ht r)
    have hdir : ∀ t : State, t.run = true → afterOp (.wrdir d) t = commitDir d t :=
      fun t ht => exec_next_iff.mp (exec_wrdir_of_run ht d)
    rw [hrate s hr, hdir s hr, hdir _ (by exact hr), hrate _ (by exact hr)]
    exact ⟨rfl, rfl⟩

/-- Settles O25: the halves commit the pair in either order; a tick after one half finds the field it committed. -/
theorem splitHalvesAndTickBetween : Obligations.SplitHalvesAndTickBetween := by
  refine ⟨fun ffN frN s => ⟨?_, ?_⟩, fun r s hr => ?_, fun d s hr => ?_⟩
  · rw [expandPseudo, expandPseudo, execAll_pair, (afterOp_split_writes ..).1, execAll_singleton, exec_eq, afterOp]
  · rw [expandPseudo, expandPseudo, execAll_pair, (afterOp_split_writes ..).2, execAll_singleton, exec_eq, afterOp]
  · rw [execAll_cons, exec_next_iff.mp (exec_wrrate_of_run hr r), execAll_singleton, commitRate]
  · rw [execAll_cons, exec_next_iff.mp (exec_wrdir_of_run hr d), execAll_singleton, commitDir]

/-! ## RUN (`10_state.md` R26) -/

/-- Settles O27: RUN gates every operation of the two components. -/
theorem heldBlockIgnoresComponents : Obligations.HeldBlockIgnoresComponents :=
  fun _ _ hr hi => exec_next_iff.mpr (afterOp_of_held hi hr)

/-- RUN after an operation: what START and RESET write, and otherwise what it was. -/
theorem afterOp_run_cases (i : Instr) (s : State) :
    (afterOp i s).run = s.run ∨ (i = .start ∧ (afterOp i s).run = true) ∨
      (i = .reset ∧ (afterOp i s).run = false) := by
  rcases afterOp_cases i s with ⟨-, h⟩ | ⟨hi, h⟩ | ⟨hi, h⟩ | ⟨_, -, h⟩ |
    ⟨-, ⟨-, -, h⟩ | ⟨-, -, h⟩ | ⟨_, _, -, h⟩ | ⟨_, -, h⟩ | ⟨_, -, h⟩⟩
  case inr.inl => exact .inr (.inr ⟨hi, by rw [h, resetRegisters_run]⟩)
  case inr.inr.inl => exact .inr (.inl ⟨hi, by rw [h, enable_run]⟩)
  all_goals exact .inl (by simp [h])

theorem eq_start_of_run_set {i : Instr} {s : State} (h : s.run = false) (h' : (afterOp i s).run = true) :
    i = .start := by
  rcases afterOp_run_cases i s with hr | ⟨hi, -⟩ | ⟨-, hr⟩ <;> simp_all

theorem eq_reset_of_run_cleared {i : Instr} {s : State} (h : s.run = true) (h' : (afterOp i s).run = false) :
    i = .reset := by
  rcases afterOp_run_cases i s with hr | ⟨-, hr⟩ | ⟨hi, -⟩ <;> simp_all

/-- A step that changes RUN ran an operation, whose one word stood at the head of the events. -/
theorem step_run_changed {s t : State} (h : step s = .next t) (hne : t.run ≠ s.run) :
    ∃ i rest, s.events.head? = some (encode s.cfg i) ∧ t = afterOp i { s with events := rest } := by
  obtain ⟨hw, -⟩ := step_next_cases h
  obtain rfl | ⟨ev, rest, i, he, hd, -, ht⟩ := step_next_afterOp h
  · exact absurd rfl hne
  · exact ⟨i, rest, by rw [he, List.head?_cons, (encodeOfDecodeIsIdentity s.cfg ev i hw hd).2], ht⟩

/-- Settles O28: only START and RESET write RUN, and each has one word. -/
theorem runChangesOnlyByStartAndReset : Obligations.RunChangesOnlyByStartAndReset := by
  refine ⟨fun i s t h => ?_, fun s t h => ⟨fun hs ht => ?_, fun hs ht => ?_⟩⟩
  · obtain rfl := exec_next_iff.mp h
    exact ⟨eq_start_of_run_set, eq_reset_of_run_cleared⟩
  · obtain ⟨i, rest, hhead, rfl⟩ := step_run_changed h (by simp [hs, ht])
    obtain rfl : i = .start := eq_start_of_run_set (s := { s with events := rest }) hs ht
    exact hhead
  · obtain ⟨i, rest, hhead, rfl⟩ := step_run_changed h (by simp [hs, ht])
    obtain rfl : i = .reset := eq_reset_of_run_cleared (s := { s with events := rest }) hs ht
    exact hhead

/-! ## The step (`00_scope.md` R7) -/

/-- Settles O30: `step_of_decode`, also through the round trip of the coder, and the step without an event. -/
theorem stepRunsTheNextEvent : Obligations.StepRunsTheNextEvent :=
  ⟨fun _ _ _ _ hw he hd => step_of_decode hw he hd,
    fun s _ i hw hi he => step_of_decode hw he (decodeOfEncodeIsIdentity s.cfg i hw hi),
    fun _ hw he => step_of_no_event hw he⟩

/-- Settles O31: the step runs one operation on the state without its word, and no operation touches either field. -/
theorem stepKeepsConfigAndConsumesOneEvent : Obligations.StepKeepsConfigAndConsumesOneEvent := by
  intro s t h
  refine ⟨step_cfg h, ?_⟩
  obtain ⟨-, ⟨he, rfl⟩ | ⟨ev, rest, i, he, -, hx⟩⟩ := step_next_cases h
  · rw [he, List.tail_nil]
  · obtain rfl := exec_next_iff.mp hx
    rw [afterOp_events, he, List.tail_cons]

/-! ## The state after reset (`10_state.md` R34) -/

/-- Settles O38: field by field, by definition of `State.resetWith`. -/
theorem resetStateHoldsResetValues : Obligations.ResetStateHoldsResetValues :=
  ⟨fun c o => ⟨rfl, by simp, rfl, rfl, rfl, rfl, rfl, rfl⟩, 0, rfl⟩

/-- Settles O39: `inv_resetWith` with no event pending, whose configuration for `State.reset` is well formed. -/
theorem invariantHoldsAtReset : Obligations.InvariantHoldsAtReset :=
  ⟨fun _ o hw => inv_resetWith o [] hw, inv_resetWith _ [] (by decide)⟩

end Sys2Proof.Machine

/-! # Words and trace lines (`30_encoding.md` R64 to R70)

The verdict invalid, row by row of the opcode map, and the spec's own examples. -/

namespace Sys2Proof

open Sys2Proof.Machine

/-- Settles O32: the decoder run on the ten words. -/
theorem specWordsDecode : Obligations.SpecWordsDecode := by
  unfold Obligations.SpecWordsDecode
  decide

/-- Settles O37: the reader and the encoder run on the lines, for each value of `ARB_SPLIT`. -/
theorem traceExamplesAreRead : Obligations.TraceExamplesAreRead := by
  refine ⟨fun split => ?_, rfl, rfl, rfl, rfl⟩
  cases split <;> rfl

/-! ## The verdict invalid (R66) -/

theorem checked_invalid_iff {b : Bool} {i : Instr} : (∃ why, checked b i = .error why) ↔ b = false := by
  cases b <;> simp [checked]

theorem whenSplit_invalid_iff {c : Config} {d : Except Invalid Instr} :
    (∃ why, whenSplit c d = .error why) ↔ c.arbSplit = false ∨ ∃ why, d = .error why := by
  cases h : c.arbSplit <;> simp [whenSplit, h]

/-- A must-be-zero bit from `k` up that is 1. -/
theorem clearFrom_eq_false_iff {n k : Nat} {arg : BitVec n} :
    clearFrom n k arg = false ↔ ∃ j, k ≤ j ∧ arg.getLsbD j = true := by
  constructor
  · contrapose!
    exact fun h => by simp [clearFrom_of_getLsbD fun j hj => Bool.eq_false_iff.mpr (h j hj)]
  · rintro ⟨j, hj, hbit⟩
    rw [clearFrom, decide_eq_false_iff_not, Nat.not_lt]
    exact (Nat.pow_le_pow_right (by decide) hj).trans (Nat.ge_two_pow_of_testBit hbit)

theorem clearFrom_zero_eq_false_iff {n : Nat} {arg : BitVec n} : clearFrom n 0 arg = false ↔ arg ≠ 0#n := by
  rw [Bool.eq_false_iff, Ne, clearFrom_zero_iff]

theorem lowClear_eq_false_iff {n : Nat} {arg : BitVec n} :
    lowClear n arg = false ↔ arg.getLsbD 0 = true ∨ arg.getLsbD 1 = true := by
  rw [Bool.eq_false_iff, Ne, lowClear_iff, not_and_or, Bool.not_eq_false, Bool.not_eq_false]

/-- Which codes and operand fields are invalid (R66). -/
def InvalidFields (c : Config) (op : BitVec 4) (arg : BitVec c.portW) : Prop :=
  8 ≤ op.toNat ∨ ((op = 5#4 ∨ op = 6#4) ∧ c.arbSplit = false) ∨ (op.toNat ≤ 3 ∧ arg ≠ 0#c.portW) ∨
    (op = 4#4 ∧ ∃ k, 2 ≤ k ∧ arg.getLsbD k = true) ∨
    ((op = 5#4 ∨ op = 6#4) ∧ ∃ k, 1 ≤ k ∧ arg.getLsbD k = true) ∨
    (op = 7#4 ∧ (arg.getLsbD 0 = true ∨ arg.getLsbD 1 = true))

theorem decodeOp_of_reserved {c : Config} {op : BitVec 4} {arg : BitVec c.portW} (h : 8 ≤ op.toNat) :
    decodeOp c op arg = .error .reservedOp := by
  unfold decodeOp
  split
  case h_9 => rfl
  all_goals omega

theorem decodeOp_invalid_iff (c : Config) (op : BitVec 4) (arg : BitVec c.portW) :
    (∃ why, decodeOp c op arg = .error why) ↔ InvalidFields c op arg := by
  by_cases h8 : 8 ≤ op.toNat
  · exact iff_of_true ⟨_, decodeOp_of_reserved h8⟩ (.inl h8)
  · have hop : op ∈ [0#4, 1#4, 2#4, 3#4, 4#4, 5#4, 6#4, 7#4] := by revert op; decide
    have hplain := fun i => (checked_invalid_iff (i := i)).trans (clearFrom_zero_eq_false_iff (arg := arg))
    have hsplit := fun i => (whenSplit_invalid_iff (c := c)).trans
      (or_congr_right ((checked_invalid_iff (i := i)).trans (clearFrom_eq_false_iff (k := 1) (arg := arg))))
    simp only [List.mem_cons, List.not_mem_nil, or_false] at hop
    rcases hop with rfl | rfl | rfl | rfl | rfl | rfl | rfl | rfl
    · exact (hplain .nop).trans (by simp [InvalidFields])
    · exact (hplain .reset).trans (by simp [InvalidFields])
    · exact (hplain .start).trans (by simp [InvalidFields])
    · exact (hplain .tick).trans (by simp [InvalidFields])
    · exact checked_invalid_iff.trans (clearFrom_eq_false_iff.trans (by simp [InvalidFields]))
    · exact (hsplit _).trans (by simp [InvalidFields])
    · exact (hsplit _).trans (by simp [InvalidFields])
    · exact checked_invalid_iff.trans (lowClear_eq_false_iff.trans (by simp [InvalidFields]))

theorem decode_invalid_iff (c : Config) (ev : EventWord c.portW) :
    (∃ why, decode c ev = .error why) ↔
      zField c.portW ev ≠ 0#4 ∨ InvalidFields c (opField c.portW ev) (argField c.portW ev) := by
  by_cases hz : zField c.portW ev = 0#4
  · rw [decode, if_pos hz, decodeOp_invalid_iff, or_iff_right (not_not_intro hz)]
  · rw [decode, if_neg hz]
    exact iff_of_true ⟨_, rfl⟩ (.inl hz)

/-- Settles O35: row by row of the map, what is left over being the reserved codes; a step finds the word in `fetch`. -/
theorem invalidWordsAreExactlyTheseAndRefused : Obligations.InvalidWordsAreExactlyTheseAndRefused := by
  refine ⟨fun c ev => ?_, fun s ev rest why hw he hd => step_of_invalid hw he hd⟩
  rw [decode_invalid_iff, InvalidFields, or_left_comm]

end Sys2Proof

/-! # Coincident wires (`60_exceptions.md` R124)

The operations of one cycle as six wires in order, and the state after a cycle with a TICK. -/

namespace Sys2Proof.Machine

/-! ## Which operations, in which order -/

/-- The wires of a cycle without RESET, in R124's order: the operation of each active one. -/
def cycleWires (w : Strobes) : List (Option Instr) :=
  [if w.start then some .start else none, if w.tick then some .tick else none,
    w.sample.map fun p => .sample p.1 p.2, w.wrrate.map .wrrate, w.wrdir.map .wrdir, w.portwr.map .portwr]

theorem serialize_of_reset {w : Strobes} (h : w.reset = true) : serialize w = [.reset] := by
  rw [serialize, if_pos h]

theorem serialize_of_no_reset {w : Strobes} (h : w.reset = false) :
    serialize w = (cycleWires w).flatMap Option.toList := by
  rw [serialize, if_neg (by simp [h])]
  simp only [cycleWires, List.flatMap_cons, List.flatMap_nil, List.append_nil, List.append_assoc]
  refine congrArg₂ _ ?_ (congrArg₂ _ ?_ (congrArg₂ _ ?_ (congrArg₂ _ ?_ (congrArg₂ _ ?_ ?_))))
  · cases w.start <;> rfl
  · cases w.tick <;> rfl
  · cases w.sample <;> rfl
  · cases w.wrrate <;> rfl
  · cases w.wrdir <;> rfl
  · cases w.portwr <;> rfl

theorem mem_serialize {w : Strobes} (h : w.reset = false) (i : Instr) :
    i ∈ serialize w ↔ some i ∈ cycleWires w := by
  simp [serialize_of_no_reset h, List.mem_flatMap]

/-- Each wire has its own operation code, and their order is that of the codes. -/
theorem opcode_serialize_sublist {w : Strobes} (h : w.reset = false) :
    ((serialize w).map opcode).Sublist ([2#4] ++ [3#4] ++ [4#4] ++ [5#4] ++ [6#4] ++ [7#4]) := by
  rw [serialize, if_neg (by simp [h])]
  simp only [List.map_append]
  refine (((((List.Sublist.append ?_ ?_).append ?_).append ?_).append ?_).append ?_)
  all_goals split <;> simp [opcode]

/-- The place of an operation in a cycle goes by its code. -/
theorem wireRank_eq (i : Instr) :
    wireRank i = if (opcode i).toNat < 4 then (opcode i).toNat - 1 else if (opcode i).toNat < 7 then 3 else 4 := by
  cases i <;> rfl

theorem wireRank_le_of_opcode_lt {i j : Instr} (h : (opcode i).toNat < (opcode j).toNat) :
    wireRank i ≤ wireRank j := by
  rw [wireRank_eq, wireRank_eq]
  split_ifs <;> omega

theorem serialize_pairwise_opcode {w : Strobes} (h : w.reset = false) :
    (serialize w).Pairwise fun i j => (opcode i).toNat < (opcode j).toNat := by
  have hcodes : ([2#4] ++ [3#4] ++ [4#4] ++ [5#4] ++ [6#4] ++ [7#4]).Pairwise fun a b => a.toNat < b.toNat := by
    decide
  have hmap := hcodes.sublist (opcode_serialize_sublist h)
  rwa [List.pairwise_map] at hmap

theorem serialize_ordered {w : Strobes} (h : w.reset = false) :
    (serialize w).Pairwise fun i j => wireRank i ≤ wireRank j :=
  (serialize_pairwise_opcode h).imp wireRank_le_of_opcode_lt

theorem serialize_nodup {w : Strobes} (h : w.reset = false) : (serialize w).Nodup :=
  (serialize_pairwise_opcode h).imp fun hlt heq => hlt.ne (congrArg (fun i => (opcode i).toNat) heq)

/-! ## The state after a cycle with a TICK -/

/-- What one wire does to the state: its operation, where it is active. -/
def wireOp (o : Option Instr) (s : State) : State := o.elim s fun i => afterOp i s

theorem execAll_serialize {w : Strobes} (h : w.reset = false) (s : State) :
    execAll (serialize w) s = .next ((cycleWires w).foldl (fun t o => wireOp o t) s) := by
  have hwire : (fun t (o : Option Instr) => o.toList.foldl (fun t i => afterOp i t) t) = fun t o => wireOp o t := by
    funext t o
    cases o <;> rfl
  rw [execAll_eq, serialize_of_no_reset h, List.foldl_flatMap, hwire]

theorem wireOp_start {b : Bool} {s : State} (h : s.run = true ∨ b = true) :
    wireOp (if b then some .start else none) s = enable s := by
  cases b with
  | true => rfl
  | false => exact (enable_of_run (h.resolve_right nofun)).symm

theorem wireOp_wrrate {s : State} (hr : s.run = true) (o : Option Rate) :
    wireOp (o.map .wrrate) s = commitRate (o.getD s.rate) s := by
  cases o with
  | none => rfl
  | some r => exact exec_next_iff.mp (exec_wrrate_of_run hr r)

theorem wireOp_wrdir {s : State} (hr : s.run = true) (o : Option Dir) :
    wireOp (o.map .wrdir) s = commitDir (o.getD s.dir) s := by
  cases o with
  | none => rfl
  | some d => exact exec_next_iff.mp (exec_wrdir_of_run hr d)

/-- What the Arbiter's wires commit: the pair of the sampled levels, or the fields that the split writes name. -/
def committedPair (w : Strobes) (s : State) : Rate × Dir :=
  w.sample.elim (w.wrrate.getD s.rate, w.wrdir.getD s.dir) fun p => policy p.1 p.2

theorem wireOp_arbiter {w : Strobes} {s : State} (hr : s.run = true)
    (hw : w.sample = none ∨ (w.wrrate = none ∧ w.wrdir = none)) :
    wireOp (w.wrdir.map .wrdir) (wireOp (w.wrrate.map .wrrate) (wireOp (w.sample.map fun p => .sample p.1 p.2) s)) =
      commitPair (committedPair w s).1 (committedPair w s).2 s := by
  cases hs : w.sample with
  | none =>
    have hnone : wireOp (Option.map (fun p : Bool × Bool => Instr.sample p.1 p.2) none) s = s := rfl
    rw [hnone, wireOp_wrrate hr, wireOp_wrdir (by exact hr), committedPair, hs]
    rfl
  | some p =>
    obtain ⟨hrate, hdir⟩ := hw.resolve_left (by simp [hs])
    rw [hrate, hdir, committedPair, hs]
    exact exec_next_iff.mp (exec_sample_of_run hr p.1 p.2)

/-- A TICK may not write DIR or RUN (`10_state.md` R33). -/
@[simp] theorem afterOp_tick_dir (s : State) : (afterOp .tick s).dir = s.dir :=
  dirCode_toNat_injective (readReg_afterOp_of_not_owned (i := .tick) (r := .dir) nofun rfl s)

@[simp] theorem afterOp_tick_run (s : State) : (afterOp .tick s).run = s.run :=
  bool_toNat_injective (readReg_afterOp_of_not_owned (i := .tick) (r := .run) nofun rfl s)

/-- The rest of a cycle with a TICK: the pair `p` that the Arbiter's wires commit, then the port's wire. -/
def afterTick (w : Strobes) (p : Rate × Dir) (t : State) : State :=
  wireOp (w.portwr.map .portwr) (commitPair p.1 p.2 t)

/-- The tick comes first, on the old pair. -/
theorem execAll_serialize_tick {w : Strobes} {s : State} (h : w.reset = false) (htick : w.tick = true)
    (hrun : s.run = true ∨ w.start = true) (hw : w.sample = none ∨ (w.wrrate = none ∧ w.wrdir = none)) :
    execAll (serialize w) s = .next (afterTick w (committedPair w s) (afterOp .tick (enable s))) := by
  have hwire : ∀ t, wireOp (if w.tick then some .tick else none) t = afterOp .tick t := by
    intro t; rw [htick]; rfl
  have hpair : committedPair w (afterOp .tick (enable s)) = committedPair w s := by
    rw [committedPair, afterOp_tick_rate, afterOp_tick_dir]; rfl
  rw [execAll_serialize h, cycleWires, List.foldl_cons, List.foldl_cons, List.foldl_cons, List.foldl_cons,
    List.foldl_cons, List.foldl_cons, List.foldl_nil, wireOp_start hrun, hwire, wireOp_arbiter (by simp) hw, hpair,
    afterTick]

/-- RATE and DIR are the committed pair at the end of the cycle, and RUN is what it was. -/
theorem afterTick_kept (w : Strobes) (p : Rate × Dir) (t : State) :
    (afterTick w p t).rate = p.1 ∧ (afterTick w p t).dir = p.2 ∧ (afterTick w p t).run = t.run := by
  rw [afterTick]
  cases w.portwr <;> exact ⟨rfl, rfl, rfl⟩

/-- What the Sequencer owns is at the end of the cycle what the tick left. -/
theorem readReg_afterTick {r : Reg} (hr : mayWrite .sequencer r = true) (w : Strobes) (p : Rate × Dir) (t : State) :
    readReg (afterTick w p t) r = readReg t r := by
  have henv : mayWrite .environment r = false := by revert hr; cases r <;> decide
  have harb : mayWrite .arbiter r = false := by revert hr; cases r <;> decide
  rw [afterTick]
  cases w.portwr with
  | none => exact readReg_commitPair harb _ _ t
  | some v => exact (readReg_writePort henv v _).trans (readReg_commitPair harb _ _ t)

theorem readReg_outUpper_afterTick (w : Strobes) (p : Rate × Dir) (t : State) :
    readReg (afterTick w p t) .outUpper =
      w.portwr.elim (readReg t .outUpper) fun v => v % 2 ^ (t.cfg.portW - 2) := by
  rw [afterTick]
  cases w.portwr with
  | none => rfl
  | some v => exact writeUpper_upper _ _ _

/-- Settles O45: the wires in the order of their codes, and the cycle with a TICK register by register. -/
theorem coincidentWiresAreSerialised : Obligations.CoincidentWiresAreSerialised := by
  refine ⟨fun w => serialize_of_reset, fun w h _ => ⟨serialize_ordered h, serialize_nodup h, ?_⟩, fun s => ?_,
    fun w s h htick hrun hw => ⟨_, _, exec_eq .tick _, execAll_serialize_tick h htick hrun hw, ?_⟩⟩
  · simp [mem_serialize h, cycleWires]
  · exact (execAll_pair .start .tick s).trans (exec_eq .tick _).symm
  · have hcfg : (afterOp .tick (enable s)).cfg = s.cfg := afterOp_cfg .tick _
    have hupper : readReg (afterOp .tick (enable s)) .outUpper = readReg s .outUpper :=
      readReg_afterOp_of_not_owned (i := .tick) nofun rfl _
    obtain ⟨hrate, hdir, hr⟩ := afterTick_kept w (committedPair w s) (afterOp .tick (enable s))
    refine ⟨hr.trans (afterOp_tick_run _), readReg_afterTick (r := .tickcnt) rfl .., ?_, readReg_afterTick rfl ..,
      fun a b hs => ?_, fun hs => ?_, fun v hv => ?_, fun hv => ?_⟩
    · exact BitVec.eq_of_toNat_eq (readReg_afterTick (r := .phase) rfl ..)
    · rw [hrate, hdir, committedPair, hs]; rfl
    · rw [hrate, hdir, committedPair, hs]; exact ⟨rfl, rfl⟩
    · rw [readReg_outUpper_afterTick, hv, hcfg]; rfl
    · rw [readReg_outUpper_afterTick, hv, hupper]; rfl

end Sys2Proof.Machine
